-- ==== Sys2Proof/Word.lean ====
section
/-! DEFINITION. The value types of the GVM core (spec/00_scope.md R2, R3, R4).

What a memory cell, a register or the instruction pointer holds is a natural number (R3: below `2^W` for
an open width `W`), and R4 says that no rule's outcome depends on `W` and that a model may use unbounded
naturals. Nothing slices its bits (00_scope.md section 5). So these values are `Nat` (log entry 5). -/

namespace Sys2Proof

/-- The instruction counter and the budget: unsigned 64-bit values (R2, `CNTW = 64`; R14, R16). The
counter wraps (10_state.md R15), so it is a bit vector. -/
abbrev Count := BitVec 64

/-- A decimal digit, 0 to 9. As an operand it names one of the ten registers, and every digit names an
existing one (10_state.md R11, 30_encoding.md R48), or it is the immediate itself (R49). -/
abbrev Digit := Fin 10

end Sys2Proof
end

