-- ==== Sys2Proof/Syntax.lean ====
section
/-! DEFINITION. The instruction set: one constructor for each row of spec/opcode_table.json. The ten
instructions are spec/30_encoding.md R47; the two illegal classes of cell values are rows of the table
too (R58), so that decoding is total. Operands stand in digit order: the first is `d2`, the second `d3`
(R55). -/

namespace Sys2Proof

/-- The rows of the opcode table. -/
inductive Instr where
  /-- `JNZ xt, xr`, cells `0 t r` (45_jump.md R100): jump to the address in `x[t]` if `x[r]` is not 0. -/
  | jnz (t r : Digit)
  /-- `HALT`, the cell 100 (41_halt.md R80). -/
  | halt
  /-- `LDI xd, n`, cells `2 d n` (42_immediate.md R85). -/
  | ldi (d n : Digit)
  /-- `ADDI xd, n`, cells `3 d n` (R86). -/
  | addi (d n : Digit)
  /-- `MULI xd, n`, cells `4 d n` (R87). -/
  | muli (d n : Digit)
  /-- `MOV xd, xr`, cells `5 d r` (43_register.md R90). -/
  | mov (d r : Digit)
  /-- `ADD xd, xr`, cells `6 d r` (R91). -/
  | add (d r : Digit)
  /-- `MUL xd, xr`, cells `7 d r` (R92). -/
  | mul (d r : Digit)
  /-- `LD xd, [xa]`, cells `8 d a` (44_memory_ops.md R95). -/
  | ld (d a : Digit)
  /-- `ST xr, [xa]`, cells `9 r a` (R96): the FIRST operand is the source. -/
  | st (r a : Digit)
  /-- The row `ILLEGAL_1XX`: a cell 101..199, the halt family with digits `p`, `q` not both 0 (R51). -/
  | illegal1xx (p q : Digit)
  /-- The row `ILLEGAL_GT999`: a cell holding a value above 999 (R50). -/
  | illegalGt999 (v : Nat)
  deriving DecidableEq, Repr

end Sys2Proof
end

