-- ==== Sys2Proof/WellFormed.lean ====
section
/-! DEFINITION. Which terms of `Instr` stand for a cell value. A register or immediate operand is a
`Digit`, and every digit is valid in every operand place (spec/30_encoding.md R48, R49), so only the two
illegal rows have a check. -/

namespace Sys2Proof

/-- The term is the reading of some cell value: the digits of `ILLEGAL_1XX` are not both 0 (00 is
`HALT`'s, R51), and the value of `ILLEGAL_GT999` is above 999 (R50). -/
def Instr.wf : Instr → Bool
  | .jnz _ _ | .halt | .ldi _ _ | .addi _ _ | .muli _ _ | .mov _ _ | .add _ _ | .mul _ _ => true
  | .ld _ _ | .st _ _ => true
  | .illegal1xx p q => !(p == 0 && q == 0)
  | .illegalGt999 v => decide (999 < v)

end Sys2Proof
end

