-- ==== Sys2Proof/Decode.lean ====
section
/-! DEFINITION. The decoder of spec/30_encoding.md R46, R47, R54 and the encoder of R55, R58. A cell is
the whole of an instruction (R45). Decoding is total: every natural number is the value of exactly one
row of the opcode table, and the two illegal classes are rows with names of their own (R50, R51), so no
value is left over to refuse (log entry 9). -/

namespace Sys2Proof

/-- The hundreds digit of a value, the opcode family (R46): `v div 100` for every `v <= 999`, the only
values the decoder asks it of. -/
def d1 (v : Nat) : Digit := ⟨v / 100 % 10, Nat.mod_lt _ (by decide)⟩

/-- The tens digit (R46). -/
def d2 (v : Nat) : Digit := ⟨v / 10 % 10, Nat.mod_lt _ (by decide)⟩

/-- The units digit (R46). -/
def d3 (v : Nat) : Digit := ⟨v % 10, Nat.mod_lt _ (by decide)⟩

/-- The value whose three decimal digits are `p`, `q`, `r` (R46). -/
def digits (p q r : Digit) : Nat := 100 * p.val + 10 * q.val + r.val

/-- The decoder of R54, with the two fault outcomes as the two illegal rows of the table. -/
def decode (v : Nat) : Instr :=
  if 999 < v then .illegalGt999 v
  else
    match d1 v with
    | 0 => .jnz (d2 v) (d3 v)
    | 1 => if d2 v = 0 ∧ d3 v = 0 then .halt else .illegal1xx (d2 v) (d3 v)
    | 2 => .ldi (d2 v) (d3 v)
    | 3 => .addi (d2 v) (d3 v)
    | 4 => .muli (d2 v) (d3 v)
    | 5 => .mov (d2 v) (d3 v)
    | 6 => .add (d2 v) (d3 v)
    | 7 => .mul (d2 v) (d3 v)
    | 8 => .ld (d2 v) (d3 v)
    | 9 => .st (d2 v) (d3 v)

/-- The cell value of an instruction, from the "encodes as" column of R55 and, for the illegal rows, from
the table (R58). -/
def encode : Instr → Nat
  | .jnz t r => digits 0 t r
  | .halt => digits 1 0 0
  | .ldi d n => digits 2 d n
  | .addi d n => digits 3 d n
  | .muli d n => digits 4 d n
  | .mov d r => digits 5 d r
  | .add d r => digits 6 d r
  | .mul d r => digits 7 d r
  | .ld d a => digits 8 d a
  | .st r a => digits 9 r a
  | .illegal1xx p q => digits 1 p q
  | .illegalGt999 v => v

/-- The instruction the decoder reads from a table row's word. DESIGN CHOICE (log entry 10): the table's
rows are decimal values, not bit patterns (R58), so `w`, read as one number, is the cell's value, and
`nbits` says nothing more. -/
def decodeTableWord (_nbits w : Nat) : Option Instr := some (decode w)

end Sys2Proof
end

