-- ==== Sys2Proof/Config.lean ====
section
/-! DEFINITION. What is fixed for the machine (spec/00_scope.md R2, R3) and the one input that
`State.reset` needs and the spec leaves to the host. The number of registers is the size of `Digit`.
The machine leaves no value free (spec/93_implementation_defined.md section 1), so there is no free
value here. -/

namespace Sys2Proof

/-- `MEMSIZE`: the number of memory cells (R2). -/
@[simp] abbrev Config.memSize : Nat := 1000

/-- `MOD`: the modulus of all arithmetic (R2). -/
@[simp] abbrev Config.modulus : Nat := 1000

/-- The least storage width `W` the spec allows (R3): an argument of construction, on which nothing
else depends (R4). -/
@[simp] abbrev Config.minWidth : Nat := 14

/-- The spec's default storage width (R3). -/
@[simp] abbrev Config.defaultWidth : Nat := 16

/-- DESIGN CHOICE (unsafe, log entry 6). The budget of `State.reset`. The spec makes the budget an input
of the host at construction (10_state.md R16, R25) and gives it no value; this is the one its test
vectors assume where they name none (95_test_vectors.md, Conventions). -/
def Config.resetBudget : Count := 1000000

end Sys2Proof
end

