-- ==== Sys2Proof/Machine/State.lean ====
section
/-! DEFINITION. The state of one core: the seven items of spec/10_state.md R10 and nothing else, as plain
data, and its value after reset (R25). -/

namespace Sys2Proof.Machine

/-- The five fault kinds of spec/60_exceptions.md R110. Taking one is a NEXT state of the machine (R116:
`running` falls and the kind is latched in `fcause`), so `step` and `exec` never answer the outcome
`Host.Outcome.fault` (log entry 1). -/
inductive Fault where
  /-- Code 1. Raised by the step control in phase 1 when `icount > budget` (R111). Safe: the machine's
  own fault, taken as R116 says. -/
  | executionTimeout
  /-- Code 2. Raised by the step control in phase 2 when `ip >= 1000` (R112). Safe, as above. -/
  | pointerOutOfRange
  /-- Code 3. Raised by the meaning of `ILLEGAL_GT999`, a fetched cell above 999 (R113). Safe, as above. -/
  | invalidInstruction
  /-- Code 4. Raised by the meaning of `ILLEGAL_1XX`, a fetched cell 101..199 (R114). Safe, as above. -/
  | invalidOperands
  /-- Code 5. Raised by the meanings of `LD` and `ST` when the address is above 999 (R115). Safe, as
  above. -/
  | invalidMemoryReference
  deriving DecidableEq, Repr

/-- Why the model gives no meaning. No step refuses: the spec gives every cell value an effect
(spec/93_implementation_defined.md section 2). -/
inductive Refusal where
  /-- An arm of `exec` without a meaning yet, with its row's mnemonic. No arm raises it now. Safe: the
  model would stop where the machine goes on. -/
  | notModelled (mnemonic : String)
  deriving DecidableEq, Repr

/-- Memory: the cells that do not hold 0, as pairs (address, value), addresses strictly rising. A cell
not listed holds 0, the zero fill of construction (R25). The spec's unit is the cell, and it has no
bytes and no byte order (20_memory.md R32), so a pair holds a whole cell (log entry 8). -/
abbrev Memory := List (Nat × Nat)

/-- The state of one core (R10). -/
structure State where
  /-- `mem`: 1000 cells at addresses 0..999 (R19). -/
  mem : Memory
  /-- `x[0]` to `x[9]`: the general registers, none hard-wired (R11, R12). -/
  x : Vector Nat 10
  /-- `ip`: the address of the cell the next step fetches, not limited to 0..999 (R13). -/
  ip : Nat
  /-- `icount`: the instruction counter (R14). -/
  icount : Count
  /-- `budget`: written by construction only (R16). -/
  budget : Count
  /-- `running`: false after a halt or a fault (R17). -/
  running : Bool
  /-- `fcause`: the kind of the fault that stopped the machine, `none` for its code 0 (R17). The latch
  is the spec's own decision D4 (log entry 2). -/
  fcause : Option Fault
  deriving DecidableEq, Repr

/-- The machine after construction from the empty image (R25). The image and the budget are the host's
inputs: the empty image is construction with nothing loaded, and the budget is the DESIGN CHOICE of log
entry 6. -/
def State.reset : State where
  mem := []
  x := Vector.replicate 10 0
  ip := 0
  icount := 0
  budget := Config.resetBudget
  running := true
  fcause := none

end Sys2Proof.Machine
end

