-- ==== Sys2Proof/Machine/Ops.lean ====
section
/-! DEFINITION. The shared operations: memory (spec/20_memory.md), the pointer and counter updates of a
step (spec/40_step_run_control.md), the ALU (spec/42_immediate.md R88), and taking a fault
(spec/60_exceptions.md R116). -/

namespace Sys2Proof.Machine

/-- What a listed cell holds: the first entry for the address, and 0 where there is none (R25). -/
def Memory.read : Memory → Nat → Nat
  | [], _ => 0
  | (b, w) :: m, a => if b = a then w else Memory.read m a

/-- The memory without the entries of an address. -/
def Memory.erase : Memory → Nat → Memory
  | [], _ => []
  | (b, w) :: m, a => if b = a then Memory.erase m a else (b, w) :: Memory.erase m a

/-- The memory with one more entry, before the first entry of a higher address. -/
def Memory.insert : Memory → Nat → Nat → Memory
  | [], a, v => [(a, v)]
  | (b, w) :: m, a, v => if a < b then (a, v) :: (b, w) :: m else (b, w) :: Memory.insert m a v

/-- The memory after one cell is written: the value 0 is not listed, so writing it removes the entry. -/
def Memory.write (m : Memory) (a : Nat) (v : Nat) : Memory :=
  if v = 0 then m.erase a else (m.erase a).insert a v

/-- The canonical form: addresses strictly rising and below 1000, no value 0. -/
abbrev Memory.wf (m : Memory) : Prop :=
  m.Pairwise (fun c e => c.1 < e.1) ∧ ∀ c ∈ m, c.1 < Config.memSize ∧ c.2 ≠ 0

/-- The memory that holds a list of values from an address upward and 0 elsewhere (R141). -/
def Memory.ofImage : Nat → List Nat → Memory
  | _, [] => []
  | a, v :: vs => if v = 0 then Memory.ofImage (a + 1) vs else (a, v) :: Memory.ofImage (a + 1) vs

/-- `MemRead(a, 1)` of R33: the raw value of the cell; `none` where nothing exists, at 1000 and above
(R37), for which the caller takes its fault. -/
def State.memRead (s : State) (a : Nat) : Option Nat :=
  if a < Config.memSize then some (s.mem.read a) else none

/-- `mem[a] <- v`, every other cell unchanged: the write of R34 without its range. -/
def State.setCell (s : State) (a : Nat) (v : Nat) : State := { s with mem := s.mem.write a v }

/-- `MemWrite(a, 1, v)` of R34: the value stored raw and every other cell unchanged; `none` where nothing
exists (R37). -/
def State.memWrite (s : State) (a : Nat) (v : Nat) : Option State :=
  if a < Config.memSize then some (s.setCell a v) else none

/-- `ip <- t`, unchecked (10_state.md R13). -/
def State.setIp (s : State) (t : Nat) : State := { s with ip := t }

/-- `ip <- ip + 1`, the sequential advance of R63. There is no wrap: 999 is followed by 1000 (R13). -/
def State.advance (s : State) : State := s.setIp (s.ip + 1)

/-- Phase 3 of R61: `icount <- (icount + 1) mod 2^64` (10_state.md R15). -/
def State.countFetch (s : State) : State := { s with icount := s.icount + 1 }

/-- `running <- false` of `HALT` (41_halt.md R80): no fault is latched. -/
def State.stop (s : State) : State := { s with running := false }

/-- Taking a fault, the spec's `raise F` (60_exceptions.md R116): `running` falls, the kind is latched,
and nothing else changes. Nothing is saved, there is no handler and control goes nowhere. There is no
return from a fault (R119), so no operation stands beside it. -/
def raise (f : Fault) (s : State) : State := { s with running := false, fcause := some f }

/-- `alu_add` of R88: the exact sum, reduced once modulo 1000. -/
def aluAdd (a b : Nat) : Nat := (a + b) % Config.modulus

/-- `alu_mul` of R88: the exact product, reduced once modulo 1000 (R89). -/
def aluMul (a b : Nat) : Nat := (a * b) % Config.modulus

end Sys2Proof.Machine
end

