-- ==== Sys2Proof/Machine/Operands.lean ====
section
/-! DEFINITION. The operand forms, all of them: a register named by a digit (spec/30_encoding.md R48),
the immediate digit (R49), and the register-indirect data address, the only data addressing mode
(spec/20_memory.md R31). A jump target is the register form (spec/45_jump.md R101). -/

namespace Sys2Proof.Machine

/-- `x[d]`: read of a register. Every digit names one and none is hard-wired (10_state.md R11, R12). -/
def State.reg (s : State) (d : Digit) : Nat := s.x[d.val]

/-- `x[d] <- v`: write of a register; no other register changes. -/
def State.setReg (s : State) (d : Digit) (v : Nat) : State := { s with x := s.x.set d.val v }

/-- The immediate: the digit itself, not extended, scaled or shifted (R49). -/
def imm (n : Digit) : Nat := n.val

/-- The effective address of `LD` and `ST`: the register's value itself, and the register is not changed
(R31; 44_memory_ops.md). -/
def dataAddr (a : Digit) (s : State) : Nat := s.reg a

end Sys2Proof.Machine
end

