-- ==== Sys2Proof/Machine/Immediate.lean ====
section
/-! DEFINITION. Families 2, 3, 4: `LDI`, `ADDI`, `MULI` (spec/42_immediate.md). None of them faults. -/

namespace Sys2Proof.Machine

/-- `LDI xd, n` (R85): `x[d] <- n`. -/
def execLdi (d n : Digit) (s : State) : Host.Outcome State Fault Refusal :=
  .next (s.setReg d (imm n)).advance

/-- `ADDI xd, n` (R86): `x[d] <- (x[d] + n) mod 1000`. -/
def execAddi (d n : Digit) (s : State) : Host.Outcome State Fault Refusal :=
  .next (s.setReg d (aluAdd (s.reg d) (imm n))).advance

/-- `MULI xd, n` (R87): `x[d] <- (x[d] * n) mod 1000`. -/
def execMuli (d n : Digit) (s : State) : Host.Outcome State Fault Refusal :=
  .next (s.setReg d (aluMul (s.reg d) (imm n))).advance

end Sys2Proof.Machine
end

