-- ==== Sys2Proof/Machine/Flags.lean ====
section
/-! DEFINITION. Flags: the machine has none (spec/10_state.md R20), and no instruction records a carry,
an overflow, a zero or a sign. The one condition of the instruction set stands here: the jump tests a
general register against zero. -/

namespace Sys2Proof.Machine

/-- The condition of `JNZ`: the WHOLE stored value of the register is not 0; 1000 is not treated as 0
(spec/45_jump.md R100). -/
def jumpTaken (r : Digit) (s : State) : Bool := s.reg r != 0

end Sys2Proof.Machine
end

