-- ==== Sys2Proof/Machine/Jump.lean ====
section
/-! DEFINITION. Family 0: `JNZ` (spec/45_jump.md). -/

namespace Sys2Proof.Machine

/-- `JNZ xt, xr` (R100): if `x[r]` is not 0 then `ip <- x[t]`, else `ip <- ip + 1`. The target is not
range-checked here; the next step's pointer check sees it (R102). -/
def execJnz (t r : Digit) (s : State) : Host.Outcome State Fault Refusal :=
  .next (if jumpTaken r s then s.setIp (s.reg t) else s.advance)

end Sys2Proof.Machine
end

