-- ==== Sys2Proof/Machine/MemoryOps.lean ====
section
/-! DEFINITION. Families 8, 9: `LD`, `ST` (spec/44_memory_ops.md). An address at which nothing exists
takes the fault `InvalidMemoryReference` before anything is written (spec/60_exceptions.md R115). -/

namespace Sys2Proof.Machine

/-- `LD xd, [xa]` (R95): `x[d] <- mem[x[a]]`, raw. -/
def execLd (d a : Digit) (s : State) : Host.Outcome State Fault Refusal :=
  match s.memRead (dataAddr a s) with
  | some v => .next (s.setReg d v).advance
  | none => .next (raise .invalidMemoryReference s)

/-- `ST xr, [xa]` (R96): `mem[x[a]] <- x[r]`, raw. -/
def execSt (r a : Digit) (s : State) : Host.Outcome State Fault Refusal :=
  match s.memWrite (dataAddr a s) (s.reg r) with
  | some s' => .next s'.advance
  | none => .next (raise .invalidMemoryReference s)

end Sys2Proof.Machine
end

