-- ==== Sys2Proof/Machine/Register.lean ====
section
/-! DEFINITION. Families 5, 6, 7: `MOV`, `ADD`, `MUL` (spec/43_register.md). None of them faults. Both
operands are read before the write (spec/40_step_run_control.md R64), so `d = r` is a plain self-op. -/

namespace Sys2Proof.Machine

/-- `MOV xd, xr` (R90): the value is copied as it is, with no reduction. -/
def execMov (d r : Digit) (s : State) : Host.Outcome State Fault Refusal :=
  .next (s.setReg d (s.reg r)).advance

/-- `ADD xd, xr` (R91): `x[d] <- (x[d] + x[r]) mod 1000`. -/
def execAdd (d r : Digit) (s : State) : Host.Outcome State Fault Refusal :=
  .next (s.setReg d (aluAdd (s.reg d) (s.reg r))).advance

/-- `MUL xd, xr` (R92): `x[d] <- (x[d] * x[r]) mod 1000`, the product exact. -/
def execMul (d r : Digit) (s : State) : Host.Outcome State Fault Refusal :=
  .next (s.setReg d (aluMul (s.reg d) (s.reg r))).advance

end Sys2Proof.Machine
end

