-- ==== Sys2Proof/Machine/System.lean ====
section
/-! DEFINITION. Family 1, `HALT` (spec/41_halt.md), and the two illegal rows of the opcode table, whose
effect is to take a fault (spec/60_exceptions.md R113, R114, R116). -/

namespace Sys2Proof.Machine

/-- `HALT` (R80): `running <- false`; `ip` unchanged, no fault. -/
def execHalt (s : State) : Host.Outcome State Fault Refusal :=
  .next s.stop

/-- A cell 101..199 (30_encoding.md R51, R114): the fault `InvalidOperands`. -/
def execIllegal1xx (_p _q : Digit) (s : State) : Host.Outcome State Fault Refusal :=
  .next (raise .invalidOperands s)

/-- A cell above 999 (30_encoding.md R50, R113): the fault `InvalidInstruction`. The spec's phase 4 tests
for it before any digit is read; R54 folds the test into the decoder. -/
def execIllegalGt999 (_v : Nat) (s : State) : Host.Outcome State Fault Refusal :=
  .next (raise .invalidInstruction s)

end Sys2Proof.Machine
end

