-- ==== Sys2Proof/Machine/Dispatch.lean ====
section
/-! DEFINITION. Phase 5 of a step (spec/40_step_run_control.md R61): the execute phase of each row of the
opcode table, entered with `icount` already incremented. -/

namespace Sys2Proof.Machine

def exec (i : Instr) (s : State) : Host.Outcome State Fault Refusal :=
  match i with
  | .jnz t r => Sys2Proof.Machine.execJnz t r s
  | .halt => Sys2Proof.Machine.execHalt s
  | .ldi d n => Sys2Proof.Machine.execLdi d n s
  | .addi d n => Sys2Proof.Machine.execAddi d n s
  | .muli d n => Sys2Proof.Machine.execMuli d n s
  | .mov d r => Sys2Proof.Machine.execMov d r s
  | .add d r => Sys2Proof.Machine.execAdd d r s
  | .mul d r => Sys2Proof.Machine.execMul d r s
  | .ld d a => Sys2Proof.Machine.execLd d a s
  | .st r a => Sys2Proof.Machine.execSt r a s
  | .illegal1xx p q => Sys2Proof.Machine.execIllegal1xx p q s
  | .illegalGt999 v => Sys2Proof.Machine.execIllegalGt999 v s

end Sys2Proof.Machine
end

