-- ==== Sys2Proof/Machine/Control.lean ====
section
/-! DEFINITION. The step control: the fixed sequence of checks of spec/40_step_run_control.md R61, around
the execute phase. -/

namespace Sys2Proof.Machine

/-- Phase 1's check: `icount > budget`, strict, before the increment (R66). -/
def State.timedOut (s : State) : Bool := decide (s.budget < s.icount)

/-- The cell at `ip`; `none` where the pointer check of phase 2 fails, `ip >= 1000`. -/
def State.fetch (s : State) : Option Nat := s.memRead s.ip

/-- One step request (R60, R61). A terminal machine is unchanged (R60, decision D6, log entry 3). A
running one makes the budget check, the pointer check, the count, the fetch, then decodes and executes;
the first check that fails takes its fault and ends the step (R117). -/
def stepControl (s : State) : Host.Outcome State Fault Refusal :=
  if s.running then
    if s.timedOut then .next (raise .executionTimeout s)
    else
      match s.fetch with
      | none => .next (raise .pointerOutOfRange s)
      | some v => exec (decode v) s.countFetch
  else .next s

/-- The memory of `s` with `w` in the cell the next step fetches. -/
def State.placeAtIp (s : State) (w : Nat) : State := s.setCell s.ip w

end Sys2Proof.Machine
end

