-- ==== Sys2Proof/Machine/Step.lean ====
section
/-! DEFINITION. One step of the machine, and the placing of one instruction where it fetches. -/

namespace Sys2Proof.Machine

/-- One step request, spec/40_step_run_control.md R60 and R61. -/
def step (s : State) : Host.Outcome State Fault Refusal := stepControl s

/-- `s` with the cell value `w` stored in the cell at `ip`, which the next step fetches. DESIGN CHOICE
(log entries 7 and 10): it stands for the load of a one-cell image at construction, and changes nothing
but that cell; a state whose next step fetches nothing (stopped, timed out, `ip >= 1000`) is not made to
fetch. `nbits` says nothing more: an instruction is one whole cell. -/
def State.withFetchWord (s : State) (_nbits w : Nat) : State := s.placeAtIp w

end Sys2Proof.Machine
end

