-- ==== Sys2Proof/Machine/HostInterface.lean ====
section
/-! DEFINITION. The host's operations, each atomic and between steps (spec/40_step_run_control.md R68):
construct (spec/70_reset_and_hazards.md R141), step (R69), execute (R70), stats (R71), and the views with
the fault record (R72; spec/10_state.md R26). After construction none of them writes the state but by
steps (R73). -/

namespace Sys2Proof.Machine

/-- The code that stands for a fault kind (60_exceptions.md R110, decision D5). -/
def Fault.code : Fault → Nat
  | .executionTimeout => 1
  | .pointerOutOfRange => 2
  | .invalidInstruction => 3
  | .invalidOperands => 4
  | .invalidMemoryReference => 5

/-- The value 0..5 of `fcause` (10_state.md R17). -/
def State.fcauseCode (s : State) : Nat :=
  match s.fcause with
  | none => 0
  | some f => f.code

/-- The three states of the source's state machine (10_state.md R18). -/
inductive RunState where
  | running
  | halted
  | faulted (f : Fault)
  deriving DecidableEq, Repr

/-- The state of the state machine as a function of `running` and `fcause` (R18). -/
def State.runState (s : State) : RunState :=
  if s.running then .running
  else
    match s.fcause with
    | none => .halted
    | some f => .faulted f

/-- Why construction makes no machine. Neither is one of the five faults (60_exceptions.md R120).
DESIGN CHOICE (unsafe, log entry 18): the spec says that construction refuses and leaves open what a refusal
returns (91_not_in_source.md N25). That it returns a reason, and that there are two, is the model's. -/
inductive ConstructRefusal where
  /-- The image has more than 1000 cells (R141). -/
  | imageTooLong
  /-- The image holds a value of `2^W` or more (R142, decision D13). -/
  | valueTooWide
  deriving DecidableEq, Repr

/-- The result of construction: a new machine, or none. -/
inductive Construction where
  | built (s : State)
  | refused (r : ConstructRefusal)
  deriving DecidableEq, Repr

/-- `new(image, budget)` of R141 at the width `W`: the machine's one reset (R140). The tests stand in the
order of R141's pseudocode. The spec leaves what a refusal returns open and says that the order cannot be
observed (91_not_in_source.md N25); the two reasons make it visible on an image that is too long and too wide,
which is refused as too long (DESIGN CHOICE, log entry 18). -/
def construct (W : Nat) (img : List Nat) (b : Count) : Construction :=
  if Config.memSize < img.length then .refused .imageTooLong
  else if img.any (fun v => decide (2 ^ W ≤ v)) then .refused .valueTooWide
  else
    .built {
      mem := Memory.ofImage 0 img
      x := Vector.replicate 10 0
      ip := 0
      icount := 0
      budget := b
      running := true
      fcause := none }

/-- What a step request or `execute` reports: nothing, or a fault kind (R68). -/
inductive Result where
  | ok
  | fault (f : Fault)
  deriving DecidableEq, Repr

/-- The latched outcome (R60): `ok` if no fault was taken. -/
def State.result (s : State) : Result :=
  match s.fcause with
  | none => .ok
  | some f => .fault f

/-- The state after one step request. Every step answers a next state (93_implementation_defined.md
section 2), so the other two outcomes, which keep the state, do not happen. -/
def stepState (s : State) : State :=
  match step s with
  | .next t => t
  | .fault _ => s
  | .refused _ => s

/-- The state after `k` step requests. -/
def stepTimes : Nat → State → State
  | 0, s => s
  | k + 1, s => stepTimes k (stepState s)

/-- The host's `step` (R69): the state after it and what it reports. -/
def hostStep (s : State) : State × Result := (stepState s, (stepState s).result)

/-- The host's `execute` (R70): steps while `running`, at most `fuel` of them; `none` if that many steps
do not end the run. A run whose budget is below `2^64 - 1` ends within `budget + 2` steps. -/
def execute : Nat → State → Option (State × Result)
  | 0, s => if s.running then none else some (s, s.result)
  | k + 1, s => if s.running then execute k (stepState s) else some (s, s.result)

/-- The host's `stats` (R71): a pure read of `(icount, running)`. -/
def stats (s : State) : Count × Bool := (s.icount, s.running)

/-- The fault record of 10_state.md R26, without the reason text (decision D9, log entry 12). -/
structure FaultRecord where
  kind : Fault
  regs : Vector Nat 10
  pointer : Nat
  counter : Count
  /-- The cell at the pointer; `none` is the marker that the pointer itself was out of range. -/
  instr : Option Nat
  deriving DecidableEq, Repr

/-- The fault record of a machine that has taken a fault: a function of the frozen state (R26). -/
def State.faultRecord (s : State) : Option FaultRecord :=
  s.fcause.map fun f =>
    { kind := f, regs := s.x, pointer := s.ip, counter := s.icount, instr := s.memRead s.ip }

end Sys2Proof.Machine
end

