-- ==== Sys2Proof/Safety.lean ====
section
/-! DEFINITION. The terms in which the statements speak: what two states have in common, when a step
reaches the fetch, and what a legal state is. -/

namespace Sys2Proof.Machine

/-- Every cell reads the same. -/
def SameMem (s t : State) : Prop := ∀ a : Nat, t.memRead a = s.memRead a

/-- Every register but `d` is unchanged. -/
def SameRegsBut (d : Digit) (s t : State) : Prop := ∀ r : Digit, r ≠ d → t.reg r = s.reg r

/-- Every register is unchanged. -/
def SameRegs (s t : State) : Prop := ∀ r : Digit, t.reg r = s.reg r

/-- The control and status items of spec/10_state.md section 4 are unchanged: counter, budget, run flag,
fault latch. -/
def SameControl (s t : State) : Prop :=
  t.icount = s.icount ∧ t.budget = s.budget ∧ t.running = s.running ∧ t.fcause = s.fcause

/-- A step request reaches the fetch, and the cell fetched holds `v` (spec/40_step_run_control.md R61,
phases 1 to 4). -/
def Fetches (s : State) (v : Nat) : Prop :=
  s.running = true ∧ s.icount ≤ s.budget ∧ s.memRead s.ip = some v

/-- A legal state: memory in its canonical form, and no running machine with a fault latched
(spec/10_state.md R18). -/
def Legal (s : State) : Prop := s.mem.wf ∧ (s.running = true → s.fcause = none)

/-- Every cell and every register is at most `M`, and the pointer at most the larger of `M` and 1000
(spec/00_scope.md R4). -/
def Bounded (M : Nat) (s : State) : Prop :=
  (∀ a v, s.memRead a = some v → v ≤ M) ∧ (∀ r : Digit, s.reg r ≤ M) ∧ s.ip ≤ max M 1000

/-- Every stored value fits in `W` bits (spec/10_state.md R10, the range column). -/
def FitsWidth (W : Nat) (s : State) : Prop :=
  (∀ a v, s.memRead a = some v → v < 2 ^ W) ∧ (∀ r : Digit, s.reg r < 2 ^ W) ∧ s.ip < 2 ^ W

/-- Every cell and every register holds a canonical value (spec/10_state.md R22). -/
def Canonical (s : State) : Prop :=
  (∀ a v, s.memRead a = some v → v ≤ 999) ∧ ∀ r : Digit, s.reg r ≤ 999

/-- The counter bound of spec/10_state.md R24. -/
def CounterBounded (s : State) : Prop :=
  s.budget.toNat < 2 ^ 64 - 1 → s.icount.toNat ≤ s.budget.toNat + 1

/-- The register an instruction writes (spec/10_state.md R12, the column "writes"). -/
def writesReg : Instr → Option Digit
  | .ldi d _ | .addi d _ | .muli d _ | .mov d _ | .add d _ | .mul d _ | .ld d _ => some d
  | .jnz _ _ | .halt | .st _ _ | .illegal1xx _ _ | .illegalGt999 _ => none

/-- The registers an instruction reads (spec/10_state.md R12, the column "reads"). -/
def readsRegs : Instr → List Digit
  | .addi d _ | .muli d _ => [d]
  | .mov _ r => [r]
  | .add d r | .mul d r => [d, r]
  | .ld _ a => [a]
  | .st r a => [r, a]
  | .jnz t r => [t, r]
  | .ldi _ _ | .halt | .illegal1xx _ _ | .illegalGt999 _ => []

end Sys2Proof.Machine
end

