-- ==== Sys2Proof/Certificates/Slice0/Obligations.lean ====
section
/-! DEFINITION. The statements, from the numbered rules of spec/. In an instruction's statement the state
`s` is the state its execute phase is entered with, `icount` already incremented (spec/41_halt.md, the
template). `Fetches s v` says that a step request at `s` passes the budget and pointer checks and fetches
the cell value `v`. The latch `fcause`, which many of them read, is the spec's own decision D4 (log
entry 2). -/

open Sys2Proof Sys2Proof.Machine

/-! ### Encoding -/

/-- Decoding the cell value of a well-formed instruction gives the instruction back, every operand at every
value (spec/30_encoding.md sections 2, 6, 7). -/
def Obligations.DecodeOfEncodeIsIdentity : Prop :=
  ∀ i : Instr, i.wf = true → decode (encode i) = i

/-- Every natural number is the cell value of exactly one well-formed row: the one the decoder answers
(spec/30_encoding.md section 4; the decoder's totality is R54, an inference of the spec's). -/
def Obligations.EveryCellValueHasOneReading : Prop :=
  ∀ v : Nat, (decode v).wf = true ∧ encode (decode v) = v ∧
    ∀ i : Instr, i.wf = true → encode i = v → i = decode v

/-- R46 and R47: the three digits of a value up to 999, and the family the hundreds digit selects. -/
def Obligations.DecoderFollowsOpcodeMap : Prop :=
  ∀ v : Nat, v ≤ 999 → ∃ h p q : Digit,
    h.val = v / 100 ∧ p.val = v / 10 % 10 ∧ q.val = v % 10 ∧ v = 100 * h.val + 10 * p.val + q.val ∧
    (∀ k : Nat, h.val = k ↔ 100 * k ≤ v ∧ v ≤ 100 * k + 99) ∧
    (h = 0 → decode v = .jnz p q) ∧
    (v = 100 → decode v = .halt) ∧
    (h = 1 → v ≠ 100 → decode v = .illegal1xx p q) ∧
    (h = 2 → decode v = .ldi p q) ∧
    (h = 3 → decode v = .addi p q) ∧
    (h = 4 → decode v = .muli p q) ∧
    (h = 5 → decode v = .mov p q) ∧
    (h = 6 → decode v = .add p q) ∧
    (h = 7 → decode v = .mul p q) ∧
    (h = 8 → decode v = .ld p q) ∧
    (h = 9 → decode v = .st p q)

/-- Cell values of the spec's worked examples, one or more of each family (spec/95_test_vectors.md sections
1, 2 and 4). -/
def Obligations.SampleCellsDecode : Prop :=
  decode 53 = .jnz 5 3 ∧ decode 0 = .jnz 0 0 ∧ decode 100 = .halt ∧ decode 219 = .ldi 1 9 ∧
  decode 356 = .addi 5 6 ∧ decode 415 = .muli 1 5 ∧ decode 512 = .mov 1 2 ∧ decode 643 = .add 4 3 ∧
  decode 712 = .mul 1 2 ∧ decode 821 = .ld 2 1 ∧ decode 941 = .st 4 1 ∧ decode 123 = .illegal1xx 2 3 ∧
  decode 9999 = .illegalGt999 9999

/-! ### Instructions: encoding, result, frame, completion -/

/-- R85. -/
def Obligations.LdiSetsRegisterToDigit : Prop :=
  ∀ d n : Digit, decode (200 + 10 * d.val + n.val) = .ldi d n ∧
    ∀ s : State, ∃ t, exec (.ldi d n) s = .next t ∧ t.reg d = n.val ∧ t.ip = s.ip + 1 ∧
      SameRegsBut d s t ∧ SameMem s t ∧ SameControl s t

/-- R86. -/
def Obligations.AddiAddsDigitModulo1000 : Prop :=
  ∀ d n : Digit, decode (300 + 10 * d.val + n.val) = .addi d n ∧
    ∀ s : State, ∃ t, exec (.addi d n) s = .next t ∧ t.reg d = (s.reg d + n.val) % 1000 ∧
      t.ip = s.ip + 1 ∧ SameRegsBut d s t ∧ SameMem s t ∧ SameControl s t

/-- R87. -/
def Obligations.MuliMultipliesByDigitModulo1000 : Prop :=
  ∀ d n : Digit, decode (400 + 10 * d.val + n.val) = .muli d n ∧
    ∀ s : State, ∃ t, exec (.muli d n) s = .next t ∧ t.reg d = (s.reg d * n.val) % 1000 ∧
      t.ip = s.ip + 1 ∧ SameRegsBut d s t ∧ SameMem s t ∧ SameControl s t

/-- R90: the value is copied as it is, raw values among them. -/
def Obligations.MovCopiesWithoutReduction : Prop :=
  ∀ d r : Digit, decode (500 + 10 * d.val + r.val) = .mov d r ∧
    ∀ s : State, ∃ t, exec (.mov d r) s = .next t ∧ t.reg d = s.reg r ∧ t.ip = s.ip + 1 ∧
      SameRegsBut d s t ∧ SameMem s t ∧ SameControl s t

/-- R91, for `d = r` too. -/
def Obligations.AddAddsRegistersModulo1000 : Prop :=
  ∀ d r : Digit, decode (600 + 10 * d.val + r.val) = .add d r ∧
    ∀ s : State, ∃ t, exec (.add d r) s = .next t ∧ t.reg d = (s.reg d + s.reg r) % 1000 ∧
      t.ip = s.ip + 1 ∧ SameRegsBut d s t ∧ SameMem s t ∧ SameControl s t

/-- R92, for `d = r` too: the product is exact before the reduction. -/
def Obligations.MulMultipliesRegistersModulo1000 : Prop :=
  ∀ d r : Digit, decode (700 + 10 * d.val + r.val) = .mul d r ∧
    ∀ s : State, ∃ t, exec (.mul d r) s = .next t ∧ t.reg d = (s.reg d * s.reg r) % 1000 ∧
      t.ip = s.ip + 1 ∧ SameRegsBut d s t ∧ SameMem s t ∧ SameControl s t

/-- R95: the load, its frame, and its fault before anything is written. The last part is the whole step,
with the counter incremented. -/
def Obligations.LdCopiesCellOrFaults : Prop :=
  ∀ d a : Digit, decode (800 + 10 * d.val + a.val) = .ld d a ∧
    (∀ s : State, s.reg a ≤ 999 → ∃ t v, s.memRead (s.reg a) = some v ∧ exec (.ld d a) s = .next t ∧
      t.reg d = v ∧ t.ip = s.ip + 1 ∧ SameRegsBut d s t ∧ SameMem s t ∧ SameControl s t) ∧
    (∀ s : State, 999 < s.reg a →
      exec (.ld d a) s = .next { s with running := false, fcause := some .invalidMemoryReference }) ∧
    (∀ s : State, Fetches s (800 + 10 * d.val + a.val) → 999 < s.reg a →
      step s = .next { s with
        icount := s.icount + 1, running := false, fcause := some .invalidMemoryReference })

/-- R96: the store, its frame over every cell, and its fault before anything is written. -/
def Obligations.StWritesCellOrFaults : Prop :=
  ∀ r a : Digit, decode (900 + 10 * r.val + a.val) = .st r a ∧
    (∀ s : State, dataAddr a s = s.reg a) ∧
    (∀ (s : State) (addr : Nat), dataAddr a s = addr → addr ≤ 999 →
      ∃ t, exec (.st r a) s = .next t ∧ t.memRead addr = some (s.reg r) ∧
        (∀ b : Nat, b ≠ addr → t.memRead b = s.memRead b) ∧
        t.ip = s.ip + 1 ∧ SameRegs s t ∧ SameControl s t) ∧
    (∀ s : State, 999 < s.reg a →
      exec (.st r a) s = .next { s with running := false, fcause := some .invalidMemoryReference }) ∧
    (∀ s : State, Fetches s (900 + 10 * r.val + a.val) → 999 < s.reg a →
      step s = .next { s with
        icount := s.icount + 1, running := false, fcause := some .invalidMemoryReference })

/-- R100 and R102: the jump taken and not taken, its frame, and the target that the NEXT step checks, after
the budget. -/
def Obligations.JnzJumpsUncheckedOrFallsThrough : Prop :=
  ∀ g r : Digit, decode (10 * g.val + r.val) = .jnz g r ∧
    (∀ s : State, ∃ t, exec (.jnz g r) s = .next t ∧
      (s.reg r = 0 → t.ip = s.ip + 1) ∧ (s.reg r ≠ 0 → t.ip = s.reg g) ∧
      SameRegs s t ∧ SameMem s t ∧ SameControl s t) ∧
    (∀ s : State, Fetches s (10 * g.val + r.val) → s.reg r ≠ 0 → 1000 ≤ s.reg g →
      step s = .next { s with icount := s.icount + 1, ip := s.reg g } ∧
      step { s with icount := s.icount + 1, ip := s.reg g } =
        .next { s with
          icount := s.icount + 1
          ip := s.reg g
          running := false
          fcause := some (if s.budget < s.icount + 1 then .executionTimeout else .pointerOutOfRange) })

/-- R80: the halt, the illegal operands of its family, the counter, the budget check before it, and that no
later step does anything. -/
def Obligations.HaltStopsCleanly : Prop :=
  decode 100 = .halt ∧
  (∀ s : State, exec .halt s = .next { s with running := false }) ∧
  (∀ s t : State, Fetches s 100 → step s = .next t →
    t = { s with icount := s.icount + 1, running := false } ∧ t.memRead t.ip = some 100 ∧
    (s.fcause = none → hostStep s = (t, .ok) ∧ execute 1 s = some (t, .ok)) ∧
    ∀ k : Nat, stepTimes k t = t) ∧
  (∀ (s : State) (v : Nat), 101 ≤ v → v ≤ 199 → Fetches s v →
    step s = .next { s with icount := s.icount + 1, running := false, fcause := some .invalidOperands }) ∧
  (∀ s : State, s.running = true → s.budget < s.icount → s.memRead s.ip = some 100 →
    step s = .next { s with running := false, fcause := some .executionTimeout })

/-- R51 and R114: the cells 101..199, and that nothing else raises their fault. -/
def Obligations.HaltFamilyWithOperandsFaults : Prop :=
  decode 100 = .halt ∧
  (∀ p q : Digit, ¬(p = 0 ∧ q = 0) → decode (100 + 10 * p.val + q.val) = .illegal1xx p q ∧
    (∀ s : State, exec (.illegal1xx p q) s =
      .next { s with running := false, fcause := some .invalidOperands }) ∧
    (∀ s t : State, Fetches s (100 + 10 * p.val + q.val) → step s = .next t →
      t = { s with icount := s.icount + 1, running := false, fcause := some .invalidOperands } ∧
      t.runState = .faulted .invalidOperands)) ∧
  (∀ (i : Instr) (s t : State), exec i s = .next t → s.fcause ≠ some .invalidOperands →
    t.fcause = some .invalidOperands → ∃ p q : Digit, i = .illegal1xx p q)

/-- R50 and R113: the cells above 999, whatever their value, and that nothing else raises their fault. -/
def Obligations.CellAbove999Faults : Prop :=
  (∀ v : Nat, 999 < v → decode v = .illegalGt999 v ∧
    (∀ s : State, exec (.illegalGt999 v) s =
      .next { s with running := false, fcause := some .invalidInstruction }) ∧
    (∀ s : State, Fetches s v →
      step s = .next { s with
        icount := s.icount + 1, running := false, fcause := some .invalidInstruction })) ∧
  (∀ (i : Instr) (s t : State), exec i s = .next t → s.fcause ≠ some .invalidInstruction →
    t.fcause = some .invalidInstruction → ∃ v : Nat, i = .illegalGt999 v)

/-- R88: the laws of the ALU, and the four instructions that use it. -/
def Obligations.AluLawsHold : Prop :=
  (∀ a b : Nat, aluAdd a b = (a + b) % 1000 ∧ aluMul a b = (a * b) % 1000 ∧
    aluAdd a b ≤ 999 ∧ aluMul a b ≤ 999 ∧
    aluAdd a b = aluAdd (a % 1000) (b % 1000) ∧ aluMul a b = aluMul (a % 1000) (b % 1000) ∧
    aluAdd a b = aluAdd b a ∧ aluMul a b = aluMul b a ∧
    aluAdd a 0 = a % 1000 ∧ aluMul a 0 = 0 ∧ aluMul a 1 = a % 1000) ∧
  (∀ a b c : Nat, aluAdd (aluAdd a b) c = aluAdd a (aluAdd b c) ∧
    aluMul (aluMul a b) c = aluMul a (aluMul b c) ∧
    aluMul a (aluAdd b c) = aluAdd (aluMul a b) (aluMul a c)) ∧
  (∀ (d e : Digit) (s t : State),
    (exec (.addi d e) s = .next t → t.reg d = aluAdd (s.reg d) e.val) ∧
    (exec (.add d e) s = .next t → t.reg d = aluAdd (s.reg d) (s.reg e)) ∧
    (exec (.muli d e) s = .next t → t.reg d = aluMul (s.reg d) e.val) ∧
    (exec (.mul d e) s = .next t → t.reg d = aluMul (s.reg d) (s.reg e)))

/-! ### The step -/

/-- R61: the phases of a step of a running machine, in their order. -/
def Obligations.StepFollowsPhaseOrder : Prop :=
  ∀ s : State, s.running = true →
    (s.budget < s.icount → step s = .next { s with running := false, fcause := some .executionTimeout }) ∧
    (s.icount ≤ s.budget → 1000 ≤ s.ip →
      step s = .next { s with running := false, fcause := some .pointerOutOfRange }) ∧
    (s.icount ≤ s.budget → s.ip < 1000 → ∃ v, s.memRead s.ip = some v ∧
      (999 < v → step s = .next { s with
        icount := s.icount + 1, running := false, fcause := some .invalidInstruction }) ∧
      (v ≤ 999 → step s = exec (decode v) { s with icount := s.icount + 1 }))

/-- A step runs the decoded instruction: where the checks pass and the cell at `ip` decodes to `i`, the step
is `exec i` at the state with the counter incremented (spec/40_step_run_control.md section 1). -/
def Obligations.StepRunsDecodedInstruction : Prop :=
  ∀ (s : State) (v : Nat) (i : Instr), s.running = true → s.icount ≤ s.budget →
    s.memRead s.ip = some v → decode v = i → step s = exec i { s with icount := s.icount + 1 }

/-- Nothing in the machine is stuck: every step request, in every state, answers a next state
(spec/93_implementation_defined.md section 2). That a fault is a NEXT state is the model's (log entry 1). -/
def Obligations.StepAlwaysAnswersNext : Prop :=
  ∀ s : State, ∃ t, step s = .next t

/-- R111: the timeout, when it is raised, and that the step control alone raises it. -/
def Obligations.TimeoutIsABudgetCheck : Prop :=
  (∀ s : State, s.running = true → s.budget < s.icount →
    step s = .next { s with running := false, fcause := some .executionTimeout }) ∧
  (∀ s t : State, step s = .next t → s.fcause ≠ some .executionTimeout →
    t.fcause = some .executionTimeout → s.running = true ∧ s.budget < s.icount) ∧
  (∀ (i : Instr) (s t : State), exec i s = .next t → s.fcause ≠ some .executionTimeout →
    t.fcause ≠ some .executionTimeout) ∧
  (∀ s : State, s.budget.toNat < 2 ^ 64 - 1 → CounterBounded s →
    (s.budget < s.icount ↔ s.icount.toNat = s.budget.toNat + 1))

/-- R112: the pointer fault, and the two ways the pointer comes to be out of range. -/
def Obligations.PointerFaultAndItsTwoCauses : Prop :=
  (∀ s t : State, s.running = true → s.icount ≤ s.budget → 1000 ≤ s.ip → step s = .next t →
    t = { s with running := false, fcause := some .pointerOutOfRange } ∧
    t.faultRecord.map (fun f => f.instr) = some none) ∧
  (∀ s t : State, step s = .next t → s.ip ≤ 999 → 1000 ≤ t.ip →
    (s.ip = 999 ∧ t.ip = 1000) ∨
    ∃ g r : Digit, Fetches s (10 * g.val + r.val) ∧ s.reg r ≠ 0 ∧ t.ip = s.reg g)

/-- R115: the memory fault of a load or a store, where the offending address still stands after it, and
that nothing else raises it. -/
def Obligations.MemoryFaultOnlyFromLoadOrStore : Prop :=
  (∀ (s t : State) (h p q : Digit), h = 8 ∨ h = 9 → Fetches s (100 * h.val + 10 * p.val + q.val) →
    999 < s.reg q → step s = .next t →
    t = { s with icount := s.icount + 1, running := false, fcause := some .invalidMemoryReference } ∧
    ∃ v, t.memRead t.ip = some v ∧ ∀ e : Digit, e.val = v % 10 → 999 < t.reg e) ∧
  (∀ (i : Instr) (s t : State), exec i s = .next t → s.fcause ≠ some .invalidMemoryReference →
    t.fcause = some .invalidMemoryReference →
    ∃ p q : Digit, (i = .ld p q ∨ i = .st p q) ∧ 999 < s.reg q)

/-- R62: the counter after a step, by the fault it took. The premise on the latch is the invariant of
`StepKeepsStateLegal`. -/
def Obligations.CounterIsAsymmetricAcrossFaults : Prop :=
  ∀ s t : State, s.running = true → s.fcause = none → step s = .next t →
    (t.fcause = some .executionTimeout ∨ t.fcause = some .pointerOutOfRange → t.icount = s.icount) ∧
    (t.fcause = some .invalidInstruction ∨ t.fcause = some .invalidOperands ∨
      t.fcause = some .invalidMemoryReference ∨ t.fcause = none → t.icount = s.icount + 1)

/-- R117: the first failing check hides the ones after it, and the two execute-phase faults belong to
different families. -/
def Obligations.FirstFailingCheckWins : Prop :=
  ∀ s t : State, s.running = true → s.fcause = none → step s = .next t →
    (t.fcause = some .executionTimeout ↔ s.budget < s.icount) ∧
    (t.fcause = some .pointerOutOfRange ↔ s.icount ≤ s.budget ∧ 1000 ≤ s.ip) ∧
    (t.fcause = some .invalidInstruction ↔ ∃ v, Fetches s v ∧ 999 < v) ∧
    (t.fcause = some .invalidOperands ↔ ∃ v, Fetches s v ∧ 101 ≤ v ∧ v ≤ 199) ∧
    (t.fcause = some .invalidMemoryReference ↔
      ∃ h p q : Digit, (h = 8 ∨ h = 9) ∧ Fetches s (100 * h.val + 10 * p.val + q.val) ∧ 999 < s.reg q)

/-- R14: the counter is 0 after construction, a step that passes both checks adds one and no other changes
it, and no instruction reads or writes it. -/
def Obligations.CounterCountsFetches : Prop :=
  (∀ (W : Nat) (img : List Nat) (b : Count) (s : State), construct W img b = .built s → s.icount = 0) ∧
  (∀ s t : State, step s = .next t →
    (s.running = true → s.icount ≤ s.budget → s.ip < 1000 → t.icount = s.icount + 1) ∧
    (s.running = false ∨ s.budget < s.icount ∨ 1000 ≤ s.ip → t.icount = s.icount)) ∧
  (∀ (i : Instr) (s t : State) (c : Count), exec i s = .next t →
    t.icount = s.icount ∧ exec i { s with icount := c } = .next { t with icount := c })

/-- R16: the budget is what the host supplied, any value is legal, no step changes it, no instruction reads
or writes it, and only the check of phase 1 depends on it. -/
def Obligations.BudgetIsReadOnlyByTheBudgetCheck : Prop :=
  (∀ (W : Nat) (img : List Nat) (b c : Count) (s : State), construct W img b = .built s →
    s.budget = b ∧ construct W img c = .built { s with budget := c }) ∧
  (∀ s t : State, step s = .next t → t.budget = s.budget) ∧
  (∀ (i : Instr) (s t : State) (c : Count), exec i s = .next t →
    exec i { s with budget := c } = .next { t with budget := c }) ∧
  (∀ (s t : State) (c : Count), (s.icount ≤ s.budget ↔ s.icount ≤ c) → step s = .next t →
    step { s with budget := c } = .next { t with budget := c }) ∧
  (∀ (s : State) (c : Count), stats { s with budget := c } = stats s)

/-- R13: the three ways in which a step of a running machine leaves the pointer, and that it always fits
where the state fits. -/
def Obligations.PointerChangesInThreeWays : Prop :=
  ∀ s t : State, s.running = true → step s = .next t →
    ((t.running = false ∧ t.ip = s.ip) ∨
      (t.running = true ∧ s.ip ≤ 999 ∧ ∃ v, Fetches s v ∧
        ((200 ≤ v ∧ v ≤ 999 ∧ t.ip = s.ip + 1) ∨
          ∃ g r : Digit, v = 10 * g.val + r.val ∧
            ((s.reg r = 0 ∧ t.ip = s.ip + 1) ∨ (s.reg r ≠ 0 ∧ t.ip = s.reg g))))) ∧
    ∀ W : Nat, 14 ≤ W → FitsWidth W s → t.ip < 2 ^ W

/-- R12: every register reads back what is written to it, an instruction changes no register but the one of
its "writes" column, and a register outside its "reads" column does not change what it does. -/
def Obligations.RegistersReadAndWrittenByTheTable : Prop :=
  (∀ (s : State) (d : Digit) (v : Nat), (s.setReg d v).reg d = v) ∧
  (∀ (i : Instr) (s t : State) (r : Digit), exec i s = .next t → t.reg r ≠ s.reg r →
    writesReg i = some r) ∧
  (∀ (i : Instr) (s t : State) (r : Digit) (v : Nat), r ∉ readsRegs i → exec i s = .next t →
    ∃ u, exec i (s.setReg r v) = .next u ∧ u.ip = t.ip ∧ SameRegsBut r t u ∧ SameMem t u ∧
      SameControl t u ∧ (u.reg r = t.reg r ∨ (u.reg r = v ∧ t.reg r = s.reg r))) ∧
  (∀ (g r : Digit) (s : State) (v : Nat), g ≠ r → s.reg r = 0 →
    exec (.jnz g r) (s.setReg g v) = .next ((s.setReg g v).setIp (s.ip + 1)))

/-- A step changes at most one cell, and only where it is a store: the cell at the address register's value,
to the source register's value (spec/20_memory.md sections 1, 3, 4). -/
def Obligations.OnlyAStoreChangesACell : Prop :=
  ∀ (s t : State) (b : Nat), step s = .next t → t.memRead b ≠ s.memRead b →
    ∃ r a : Digit, Fetches s (900 + 10 * r.val + a.val) ∧ b = s.reg a ∧ b ≤ 999 ∧
      t.memRead b = some (s.reg r)

/-- A store to the next cell is seen by the very next step: it executes the value just stored
(spec/20_memory.md section 7; R42 is the spec's own inference). -/
def Obligations.StoreIsSeenByTheNextFetch : Prop :=
  ∀ (s : State) (r a : Digit), Fetches s (900 + 10 * r.val + a.val) → s.reg a = s.ip + 1 →
    s.ip + 1 ≤ 999 → s.icount + 1 ≤ s.budget →
    ∃ t, step s = .next t ∧ t.ip = s.ip + 1 ∧ t.icount = s.icount + 1 ∧
      step t = exec (decode (s.reg r)) { t with icount := s.icount + 2 }

/-- A step that takes a fault changes the counter (in phases 4 and 5 only), the run flag and the latch, and
nothing else (spec/60_exceptions.md section 2; R118 is the spec's own inference). -/
def Obligations.FaultsArePrecise : Prop :=
  ∀ (s t : State) (f : Fault), s.running = true → s.fcause = none → step s = .next t →
    t.fcause = some f →
    SameRegs s t ∧ SameMem s t ∧ t.ip = s.ip ∧ t.budget = s.budget ∧ t.running = false ∧
    t.icount = (if f = .executionTimeout ∨ f = .pointerOutOfRange then s.icount else s.icount + 1)

/-- The latch is a pure record: a step of the machine does not read it (spec/92_eei_decisions.md D4). -/
def Obligations.FaultLatchIsNeverRead : Prop :=
  ∀ (s t : State) (f : Option Fault), step s = .next t →
    ∃ u, step { s with fcause := f } = .next u ∧ u.ip = t.ip ∧ SameRegs t u ∧ SameMem t u ∧
      u.icount = t.icount ∧ u.budget = t.budget ∧ u.running = t.running ∧
      (u.fcause = t.fcause ∨ (u.fcause = f ∧ t.fcause = s.fcause))

/-- The transition table of R65 (an inference of the spec's), in cell values: the six rows that end in a
terminal state, the row that goes on, and the terminal states. -/
def Obligations.TransitionTableHolds : Prop :=
  ∀ s : State,
    (s.running = false → step s = .next s) ∧
    (s.running = true → s.budget < s.icount →
      step s = .next { s with running := false, fcause := some .executionTimeout }) ∧
    (s.running = true → s.icount ≤ s.budget → 1000 ≤ s.ip →
      step s = .next { s with running := false, fcause := some .pointerOutOfRange }) ∧
    (∀ v, Fetches s v → 999 < v → step s = .next { s with
      icount := s.icount + 1, running := false, fcause := some .invalidInstruction }) ∧
    (∀ v, Fetches s v → 101 ≤ v → v ≤ 199 → step s = .next { s with
      icount := s.icount + 1, running := false, fcause := some .invalidOperands }) ∧
    (Fetches s 100 → step s = .next { s with icount := s.icount + 1, running := false }) ∧
    ∀ h p q : Digit, Fetches s (100 * h.val + 10 * p.val + q.val) →
      ((h = 8 ∨ h = 9) → 999 < s.reg q → step s = .next { s with
        icount := s.icount + 1, running := false, fcause := some .invalidMemoryReference }) ∧
      (h ≠ 1 → ((h = 8 ∨ h = 9) → s.reg q ≤ 999) →
        ∃ t, step s = .next t ∧ t.running = true ∧ t.fcause = s.fcause ∧ t.icount = s.icount + 1 ∧
          t.budget = s.budget ∧ SameRegsBut p s t ∧ ((h = 0 ∨ h = 9) → SameRegs s t) ∧
          (h ≠ 9 → SameMem s t) ∧ ∀ b, b ≠ s.reg q → t.memRead b = s.memRead b)

/-! ### Terminal states and the host's requests -/

/-- A step request on a terminal machine changes nothing and reports the latched outcome. This is R60,
decision D6 of the spec (log entry 3): the source does not define it. -/
def Obligations.TerminalStepReportsLatchedOutcome : Prop :=
  ∀ s : State, s.running = false →
    step s = .next s ∧ (s.fcause = none → hostStep s = (s, .ok)) ∧
    ∀ f, s.fcause = some f → hostStep s = (s, .fault f)

/-- The step that stops the machine freezes it for ever, and but for the two faults before the fetch the
pointer addresses the instruction that stopped it (spec/10_state.md section 7; R23 is the spec's own
inference). -/
def Obligations.StoppedMachineIsFrozenAtTheCulprit : Prop :=
  ∀ s t : State, s.running = true → s.fcause = none → step s = .next t → t.running = false →
    (∀ k : Nat, stepTimes k t = t) ∧ t.ip = s.ip ∧
    (t.fcause = none → t.memRead t.ip = some 100) ∧
    (t.fcause = some .invalidInstruction → ∃ v, t.memRead t.ip = some v ∧ 999 < v) ∧
    (t.fcause = some .invalidOperands → ∃ v, t.memRead t.ip = some v ∧ 101 ≤ v ∧ v ≤ 199) ∧
    (t.fcause = some .invalidMemoryReference → ∃ v, t.memRead t.ip = some v ∧ 800 ≤ v ∧ v ≤ 999)

/-- What the host's step does and reports (spec/40_step_run_control.md section 4). The first clause, a step on
a terminal machine, is R60's, decision D6 of the spec (log entry 3, unsafe): the source does not define it.
The second is R69's. The premise on the latch is the invariant of `StepKeepsStateLegal`. -/
def Obligations.HostStepReportsOkOrTheFault : Prop :=
  (∀ s : State, s.running = false → hostStep s = (s, s.result)) ∧
  ∀ (s t : State) (r : Result), s.running = true → s.fcause = none → hostStep s = (t, r) →
    step s = .next t ∧
    ((∃ v, Fetches s v ∧ exec (decode v) { s with icount := s.icount + 1 } = .next t ∧ r = .ok ∧
        (t.runState = .running ∨ t.runState = .halted)) ∨
      ∃ f, r = .fault f ∧ t.runState = .faulted f ∧
        (f = .executionTimeout ∨ f = .pointerOutOfRange →
          t = { s with running := false, fcause := some f }))

/-- The host's `execute` is the step repeated until the machine is not running, and reports the latched
outcome (spec/40_step_run_control.md section 4; the report of a run on a terminal machine is decision D14). -/
def Obligations.ExecuteIsStepRepeated : Prop :=
  ∀ (n : Nat) (s t : State) (r : Result), execute n s = some (t, r) ↔
    ∃ k, k ≤ n ∧ t = stepTimes k s ∧ t.running = false ∧ r = t.result ∧
      ∀ j, j < k → (stepTimes j s).running = true

/-- The fault record of a step that takes a fault shows the machine as it was before the step but for the
counter, and no instruction where the pointer was out of range (spec/10_state.md section 9, decision D9). -/
def Obligations.FaultRecordShowsTheFaultingState : Prop :=
  ∀ (s t : State) (f : Fault), s.running = true → s.fcause = none → step s = .next t →
    t.fcause = some f →
    t.faultRecord = some {
      kind := f, regs := s.x, pointer := s.ip, counter := t.icount, instr := s.memRead s.ip } ∧
    (s.ip ≤ 999 → ∃ v, s.memRead s.ip = some v) ∧ (999 < s.ip → s.memRead s.ip = none)

/-! ### Construction and reset -/

/-- Construction: what it refuses, and the machine it makes (spec/70_reset_and_hazards.md section 1). The
width refusal is decision D13 of the spec and the latch is decision D4 (log entries 14 and 2). That a refusal
returns a reason, and which one where the image is both too long and too wide, is the model's choice (log
entry 18). -/
def Obligations.ConstructLoadsTheImage : Prop :=
  ∀ (W : Nat) (img : List Nat) (b : Count),
    (1000 < img.length → construct W img b = .refused .imageTooLong) ∧
    (img.length ≤ 1000 → (∃ v ∈ img, 2 ^ W ≤ v) → construct W img b = .refused .valueTooWide) ∧
    (img.length ≤ 1000 → (∀ v ∈ img, v < 2 ^ W) → ∃ s, construct W img b = .built s ∧
      (∀ (a : Nat) (h : a < img.length), s.memRead a = some img[a]) ∧
      (∀ a : Nat, img.length ≤ a → a ≤ 999 → s.memRead a = some 0) ∧
      (∀ r : Digit, s.reg r = 0) ∧ s.ip = 0 ∧ s.icount = 0 ∧ s.budget = b ∧ s.running = true ∧
      s.fcause = none)

/-- `State.reset` is construction from the empty image. The image and the budget are the model's choice (log
entry 6); every other value is the spec's (spec/10_state.md section 8). -/
def Obligations.ResetIsConstructionOfTheEmptyImage : Prop :=
  construct 16 [] Config.resetBudget = .built State.reset ∧ Legal State.reset ∧
  Canonical State.reset ∧ CounterBounded State.reset

/-! ### Invariants of every step, and of whole runs -/

/-- Every step keeps the state legal: memory canonical, and no running machine with a fault latched
(spec/10_state.md section 4; R18 is the spec's own inference; the canonical form is log entry 8). -/
def Obligations.StepKeepsStateLegal : Prop :=
  ∀ s t : State, Legal s → step s = .next t → Legal t

/-- Every step keeps every stored value within the bound of R4 (the spec's own inference): no cell and no
register above `M`, no pointer above `M` and 1000, for every `M` of 999 or more. -/
def Obligations.StepKeepsValuesBounded : Prop :=
  ∀ (M : Nat) (s t : State), 999 ≤ M → Bounded M s → step s = .next t → Bounded M t

/-- The storage width does not matter (R4, the spec's own inference): a machine built at one width is built
the same at every greater width, and its values fit in the smaller for ever. -/
def Obligations.StorageWidthDoesNotMatter : Prop :=
  ∀ (W₁ W₂ : Nat) (img : List Nat) (b : Count) (s : State), 14 ≤ W₁ → W₁ ≤ W₂ →
    construct W₁ img b = .built s →
    construct W₂ img b = .built s ∧ ∀ k : Nat, FitsWidth W₁ (stepTimes k s)

/-- A machine built from a canonical image stays canonical, and never takes `InvalidMemoryReference`
(spec/10_state.md section 7 and spec/44_memory_ops.md section "Reaching the fault"; R22 and R97 are the
spec's own inferences). -/
def Obligations.CanonicalImageStaysCanonical : Prop :=
  ∀ (W : Nat) (img : List Nat) (b : Count) (s : State), (∀ v ∈ img, v ≤ 999) →
    construct W img b = .built s →
    ∀ k : Nat, Canonical (stepTimes k s) ∧ (stepTimes k s).fcause ≠ some .invalidMemoryReference

/-- Every step of a canonical machine that has not taken `InvalidMemoryReference` gives such a machine
(spec/10_state.md section 7 and spec/44_memory_ops.md section "Reaching the fault"; R22 and R97 are the
spec's own inferences). -/
def Obligations.StepKeepsCanonicalWithoutMemoryFault : Prop :=
  ∀ s t : State, Canonical s → s.fcause ≠ some .invalidMemoryReference → step s = .next t →
    Canonical t ∧ t.fcause ≠ some .invalidMemoryReference

/-- Below the greatest budget the counter never passes the budget by more than one, never falls, and at the
bound the next step times out (spec/10_state.md section 7; R24 is the spec's own inference). -/
def Obligations.CounterNeverPassesBudgetByMoreThanOne : Prop :=
  ∀ s t : State, s.budget.toNat < 2 ^ 64 - 1 → CounterBounded s → step s = .next t →
    CounterBounded t ∧ s.icount.toNat ≤ t.icount.toNat ∧
    (s.running = true → s.icount.toNat = s.budget.toNat + 1 →
      t = { s with running := false, fcause := some .executionTimeout })

/-- The counter falls only by wrapping from its greatest value to 0, under the greatest budget
(spec/10_state.md section 4; R15 is decision D8 of the spec, log entry 4). -/
def Obligations.CounterWrapsOnlyAtTheGreatestBudget : Prop :=
  ∀ s t : State, step s = .next t → t.icount.toNat < s.icount.toNat →
    s.icount.toNat = 2 ^ 64 - 1 ∧ s.budget.toNat = 2 ^ 64 - 1 ∧ t.icount = 0

/-- R66: a machine built with budget `b` below the greatest, if nothing else stops it, executes `b + 1`
instructions and times out on the attempt after them. -/
def Obligations.BudgetPermitsOneMoreInstruction : Prop :=
  ∀ (W : Nat) (img : List Nat) (b : Count) (s : State), b.toNat < 2 ^ 64 - 1 →
    construct W img b = .built s → (∀ k, k ≤ b.toNat + 1 → (stepTimes k s).running = true) →
    (∀ k, k ≤ b.toNat → ∃ v, Fetches (stepTimes k s) v) ∧
    (stepTimes (b.toNat + 1) s).icount.toNat = b.toNat + 1 ∧
    stepTimes (b.toNat + 2) s =
      { stepTimes (b.toNat + 1) s with running := false, fcause := some .executionTimeout }

/-- Below the greatest budget every run ends within `budget + 2` step requests, from every state
(spec/40_step_run_control.md section 4, spec/70_reset_and_hazards.md section 3). -/
def Obligations.RunEndsWithinBudgetPlusTwo : Prop :=
  ∀ s : State, s.budget.toNat < 2 ^ 64 - 1 →
    ∃ t, execute (s.budget.toNat + 2) s = some (t, t.result) ∧ t.running = false
end

