-- ==== Sys2Proof/Laws/Decode.lean ====
section
/-! SUPPORT. The digits of a value (spec/30_encoding.md R46) and what the decoder reads from three given
digits, so that no later proof unfolds the division. -/

namespace Sys2Proof

theorem digits_le (p q r : Digit) : digits p q r ≤ 999 := by
  simp only [digits]
  omega

@[simp] theorem d1_digits (p q r : Digit) : d1 (digits p q r) = p := by
  simp only [d1, digits, Fin.ext_iff]
  omega

@[simp] theorem d2_digits (p q r : Digit) : d2 (digits p q r) = q := by
  simp only [d2, digits, Fin.ext_iff]
  omega

@[simp] theorem d3_digits (p q r : Digit) : d3 (digits p q r) = r := by
  simp only [d3, digits, Fin.ext_iff]
  omega

/-- A value up to 999 is the value of its three digits. -/
theorem digits_of_le {v : Nat} (h : v ≤ 999) : digits (d1 v) (d2 v) (d3 v) = v := by
  simp only [d1, d2, d3, digits]
  omega

/-- The hundreds digit of a value up to 999 is its quotient by 100. -/
theorem d1_val {v : Nat} (h : v ≤ 999) : (d1 v).val = v / 100 := by
  simp only [d1]
  omega

theorem decode_of_gt {v : Nat} (h : 999 < v) : decode v = .illegalGt999 v := by
  simp [decode, h]

@[simp] theorem decode_digits_0 (q r : Digit) : decode (digits 0 q r) = .jnz q r := by
  simp [decode, Nat.not_lt.mpr (digits_le 0 q r)]

@[simp] theorem decode_digits_1 (q r : Digit) :
    decode (digits 1 q r) = if q = 0 ∧ r = 0 then .halt else .illegal1xx q r := by
  simp [decode, Nat.not_lt.mpr (digits_le 1 q r)]

@[simp] theorem decode_digits_2 (q r : Digit) : decode (digits 2 q r) = .ldi q r := by
  simp [decode, Nat.not_lt.mpr (digits_le 2 q r)]

@[simp] theorem decode_digits_3 (q r : Digit) : decode (digits 3 q r) = .addi q r := by
  simp [decode, Nat.not_lt.mpr (digits_le 3 q r)]

@[simp] theorem decode_digits_4 (q r : Digit) : decode (digits 4 q r) = .muli q r := by
  simp [decode, Nat.not_lt.mpr (digits_le 4 q r)]

@[simp] theorem decode_digits_5 (q r : Digit) : decode (digits 5 q r) = .mov q r := by
  simp [decode, Nat.not_lt.mpr (digits_le 5 q r)]

@[simp] theorem decode_digits_6 (q r : Digit) : decode (digits 6 q r) = .add q r := by
  simp [decode, Nat.not_lt.mpr (digits_le 6 q r)]

@[simp] theorem decode_digits_7 (q r : Digit) : decode (digits 7 q r) = .mul q r := by
  simp [decode, Nat.not_lt.mpr (digits_le 7 q r)]

@[simp] theorem decode_digits_8 (q r : Digit) : decode (digits 8 q r) = .ld q r := by
  simp [decode, Nat.not_lt.mpr (digits_le 8 q r)]

@[simp] theorem decode_digits_9 (q r : Digit) : decode (digits 9 q r) = .st q r := by
  simp [decode, Nat.not_lt.mpr (digits_le 9 q r)]

end Sys2Proof
end

