-- ==== Sys2Proof/Laws/Memory.lean ====
section
/-! SUPPORT. The laws of memory: a cell written reads back, every other cell is unchanged, and every
memory operation keeps the canonical form. The first two hold of every list, canonical or not. -/

namespace Sys2Proof.Machine

@[simp] theorem Memory.read_nil (a : Nat) : Memory.read [] a = 0 := rfl

theorem Memory.read_cons (b : Nat) (w : Nat) (m : Memory) (a : Nat) :
    Memory.read ((b, w) :: m) a = if b = a then w else Memory.read m a := rfl

theorem Memory.mem_erase {m : Memory} {a : Nat} {c : Nat × Nat} :
    c ∈ m.erase a ↔ c ∈ m ∧ c.1 ≠ a := by
  induction m with
  | nil => simp [Memory.erase]
  | cons e m ih =>
    obtain ⟨b, w⟩ := e
    by_cases h : b = a
    · simp only [Memory.erase, h, if_true, ih, List.mem_cons]
      constructor
      · exact fun ⟨hc, hn⟩ => ⟨.inr hc, hn⟩
      · rintro ⟨rfl | hc, hn⟩
        · exact absurd rfl hn
        · exact ⟨hc, hn⟩
    · simp only [Memory.erase, h, if_false, ih, List.mem_cons]
      constructor
      · rintro (rfl | ⟨hc, hn⟩)
        · exact ⟨.inl rfl, h⟩
        · exact ⟨.inr hc, hn⟩
      · rintro ⟨rfl | hc, hn⟩
        · exact .inl rfl
        · exact .inr ⟨hc, hn⟩

theorem Memory.mem_insert {m : Memory} {a : Nat} {v : Nat} {c : Nat × Nat} :
    c ∈ m.insert a v ↔ c = (a, v) ∨ c ∈ m := by
  induction m with
  | nil => simp [Memory.insert]
  | cons e m ih =>
    obtain ⟨b, w⟩ := e
    by_cases h : a < b
    · simp [Memory.insert, h]
    · simp only [Memory.insert, h, if_false, List.mem_cons, ih]
      tauto

theorem Memory.read_erase (m : Memory) (a b : Nat) :
    (m.erase a).read b = if b = a then 0 else m.read b := by
  induction m with
  | nil => simp [Memory.erase]
  | cons c m ih =>
    obtain ⟨e, w⟩ := c
    by_cases h : e = a
    · subst h
      simp only [Memory.erase, if_true, ih, Memory.read_cons]
      by_cases hb : b = e
      · rw [if_pos hb, if_pos hb]
      · rw [if_neg hb, if_neg hb, if_neg (Ne.symm hb)]
    · simp only [Memory.erase, h, if_false, Memory.read_cons, ih]
      by_cases hb : b = a
      · subst hb
        simp [h]
      · rw [if_neg hb, if_neg hb]

theorem Memory.read_insert (m : Memory) (a b : Nat) (v : Nat) (h : ∀ c ∈ m, c.1 ≠ a) :
    (m.insert a v).read b = if b = a then v else m.read b := by
  induction m with
  | nil => simp [Memory.insert, Memory.read_cons, eq_comm]
  | cons c m ih =>
    obtain ⟨e, w⟩ := c
    have he : e ≠ a := h (e, w) (List.mem_cons_self ..)
    have ih := ih fun c hc => h c (List.mem_cons_of_mem _ hc)
    by_cases hlt : a < e
    · simp [Memory.insert, hlt, Memory.read_cons, eq_comm]
    · simp only [Memory.insert, hlt, if_false, Memory.read_cons, ih]
      by_cases hb : b = a
      · subst hb
        simp [he]
      · rw [if_neg hb, if_neg hb]

/-- Read after write: the cell written holds the value, every other cell is unchanged. -/
@[simp] theorem Memory.read_write (m : Memory) (a b : Nat) (v : Nat) :
    (m.write a v).read b = if b = a then v else m.read b := by
  by_cases hv : v = 0
  · simp [Memory.write, hv, Memory.read_erase]
  · have h : ∀ c ∈ m.erase a, c.1 ≠ a := fun c hc => (Memory.mem_erase.mp hc).2
    by_cases hb : b = a
    · simp [Memory.write, hv, Memory.read_insert _ _ _ _ h, hb]
    · simp [Memory.write, hv, Memory.read_insert _ _ _ _ h, Memory.read_erase, hb]

theorem Memory.erase_sublist (m : Memory) (a : Nat) : (m.erase a).Sublist m := by
  induction m with
  | nil => simp [Memory.erase]
  | cons c m ih =>
    obtain ⟨b, w⟩ := c
    by_cases h : b = a
    · simpa [Memory.erase, h] using ih.cons _
    · simpa [Memory.erase, h] using ih

theorem Memory.insert_pairwise {m : Memory} {a : Nat} (v : Nat)
    (hs : m.Pairwise (fun c e => c.1 < e.1)) (hn : ∀ c ∈ m, c.1 ≠ a) :
    (m.insert a v).Pairwise (fun c e => c.1 < e.1) := by
  induction m with
  | nil => simp [Memory.insert]
  | cons c m ih =>
    obtain ⟨b, w⟩ := c
    obtain ⟨hb, hs'⟩ := List.pairwise_cons.mp hs
    have hne : b ≠ a := hn (b, w) (List.mem_cons_self ..)
    by_cases h : a < b
    · simp only [Memory.insert, h, if_true, List.pairwise_cons, List.mem_cons]
      refine ⟨?_, hb, hs'⟩
      rintro c (rfl | hc)
      · exact h
      · exact h.trans (hb c hc)
    · simp only [Memory.insert, h, if_false, List.pairwise_cons, Memory.mem_insert]
      refine ⟨?_, ih hs' fun c hc => hn c (List.mem_cons_of_mem _ hc)⟩
      rintro c (rfl | hc)
      · show b < a
        omega
      · exact hb c hc

/-- A write below address 1000 keeps the canonical form. -/
theorem Memory.wf_write {m : Memory} (h : m.wf) {a : Nat} (ha : a < 1000) (v : Nat) :
    (m.write a v).wf := by
  have hs := h.1.sublist (Memory.erase_sublist m a)
  have hm : ∀ c ∈ m.erase a, c.1 < Config.memSize ∧ c.2 ≠ 0 := fun c hc => h.2 c (Memory.mem_erase.mp hc).1
  by_cases hv : v = 0
  · simp only [Memory.write, hv, if_true]
    exact ⟨hs, hm⟩
  · simp only [Memory.write, hv, if_false]
    refine ⟨Memory.insert_pairwise v hs fun c hc => (Memory.mem_erase.mp hc).2, fun c hc => ?_⟩
    rcases Memory.mem_insert.mp hc with rfl | hc
    · exact ⟨ha, hv⟩
    · exact hm c hc

/-- Where an image's entries stand, and that none of them is 0. -/
theorem Memory.mem_ofImage {img : List Nat} {a : Nat} {c : Nat × Nat} (h : c ∈ Memory.ofImage a img) :
    a ≤ c.1 ∧ c.1 < a + img.length ∧ c.2 ≠ 0 := by
  induction img generalizing a with
  | nil => simp [Memory.ofImage] at h
  | cons v vs ih =>
    have step : c ∈ Memory.ofImage (a + 1) vs → a ≤ c.1 ∧ c.1 < a + (vs.length + 1) ∧ c.2 ≠ 0 := fun hc => by
      obtain ⟨h₁, h₂, h₃⟩ := ih hc
      exact ⟨by omega, by omega, h₃⟩
    by_cases hv : v = 0
    · simp only [Memory.ofImage, hv, if_true] at h
      simpa using step h
    · simp only [Memory.ofImage, hv, if_false, List.mem_cons] at h
      rcases h with rfl | h
      · exact ⟨le_refl _, by simp, hv⟩
      · simpa using step h

/-- The memory built from an image that fits is canonical. -/
theorem Memory.wf_ofImage {img : List Nat} (h : img.length ≤ 1000) : (Memory.ofImage 0 img).wf := by
  constructor
  · have key : ∀ (vs : List Nat) (a : Nat), (Memory.ofImage a vs).Pairwise (fun c e => c.1 < e.1) := by
      intro vs
      induction vs with
      | nil => simp [Memory.ofImage]
      | cons v vs ih =>
        intro a
        by_cases hv : v = 0
        · simpa [Memory.ofImage, hv] using ih (a + 1)
        · simp only [Memory.ofImage, hv, if_false, List.pairwise_cons]
          exact ⟨fun c hc => (Memory.mem_ofImage hc).1, ih (a + 1)⟩
    exact key img 0
  · intro c hc
    have := Memory.mem_ofImage hc
    exact ⟨by simp; omega, this.2.2⟩

/-- Where each value of an image reads, and 0 beyond it. -/
theorem Memory.read_ofImage (img : List Nat) (a b : Nat) :
    (Memory.ofImage a img).read b = if a ≤ b then img.getD (b - a) 0 else 0 := by
  induction img generalizing a with
  | nil => simp [Memory.ofImage]
  | cons v vs ih =>
    have here : (Memory.ofImage a (v :: vs)).read b = if a = b then v else (Memory.ofImage (a + 1) vs).read b := by
      by_cases hv : v = 0
      · subst hv
        simp only [Memory.ofImage, if_true]
        by_cases hb : a = b
        · rw [ih]
          simp [hb]
        · simp [hb]
      · simp only [Memory.ofImage, hv, if_false, Memory.read_cons]
    rw [here, ih]
    by_cases hb : a = b
    · simp [hb]
    · by_cases hlt : a ≤ b
      · obtain ⟨k, rfl⟩ := Nat.exists_eq_add_of_lt (lt_of_le_of_ne hlt hb)
        simp [show a + k + 1 - a = k + 1 by omega, show a + k + 1 - (a + 1) = k by omega,
          show a + 1 ≤ a + k + 1 by omega, show a ≤ a + k + 1 by omega, show a ≠ a + k + 1 by omega]
      · simp [hb, hlt, show ¬ a + 1 ≤ b by omega]

end Sys2Proof.Machine
end

