-- ==== Sys2Proof/Laws/State.lean ====
section
/-! SUPPORT. One lemma for each field and each named update of the state, so that no later proof unfolds a
record update. -/

namespace Sys2Proof.Machine

variable (s : State)

@[simp] theorem State.setReg_mem (d : Digit) (v : Nat) : (s.setReg d v).mem = s.mem := rfl
@[simp] theorem State.setReg_x (d : Digit) (v : Nat) : (s.setReg d v).x = s.x.set d.val v := rfl
@[simp] theorem State.setReg_ip (d : Digit) (v : Nat) : (s.setReg d v).ip = s.ip := rfl
@[simp] theorem State.setReg_icount (d : Digit) (v : Nat) : (s.setReg d v).icount = s.icount := rfl
@[simp] theorem State.setReg_budget (d : Digit) (v : Nat) : (s.setReg d v).budget = s.budget := rfl
@[simp] theorem State.setReg_running (d : Digit) (v : Nat) : (s.setReg d v).running = s.running := rfl
@[simp] theorem State.setReg_fcause (d : Digit) (v : Nat) : (s.setReg d v).fcause = s.fcause := rfl

@[simp] theorem State.setCell_mem (a v : Nat) : (s.setCell a v).mem = s.mem.write a v := rfl
@[simp] theorem State.setCell_x (a v : Nat) : (s.setCell a v).x = s.x := rfl
@[simp] theorem State.setCell_ip (a v : Nat) : (s.setCell a v).ip = s.ip := rfl
@[simp] theorem State.setCell_icount (a v : Nat) : (s.setCell a v).icount = s.icount := rfl
@[simp] theorem State.setCell_budget (a v : Nat) : (s.setCell a v).budget = s.budget := rfl
@[simp] theorem State.setCell_running (a v : Nat) : (s.setCell a v).running = s.running := rfl
@[simp] theorem State.setCell_fcause (a v : Nat) : (s.setCell a v).fcause = s.fcause := rfl

@[simp] theorem State.setIp_mem (t : Nat) : (s.setIp t).mem = s.mem := rfl
@[simp] theorem State.setIp_x (t : Nat) : (s.setIp t).x = s.x := rfl
@[simp] theorem State.setIp_ip (t : Nat) : (s.setIp t).ip = t := rfl
@[simp] theorem State.setIp_icount (t : Nat) : (s.setIp t).icount = s.icount := rfl
@[simp] theorem State.setIp_budget (t : Nat) : (s.setIp t).budget = s.budget := rfl
@[simp] theorem State.setIp_running (t : Nat) : (s.setIp t).running = s.running := rfl
@[simp] theorem State.setIp_fcause (t : Nat) : (s.setIp t).fcause = s.fcause := rfl

@[simp] theorem State.advance_mem : (s.advance).mem = s.mem := rfl
@[simp] theorem State.advance_x : (s.advance).x = s.x := rfl
@[simp] theorem State.advance_ip : (s.advance).ip = s.ip + 1 := rfl
@[simp] theorem State.advance_icount : (s.advance).icount = s.icount := rfl
@[simp] theorem State.advance_budget : (s.advance).budget = s.budget := rfl
@[simp] theorem State.advance_running : (s.advance).running = s.running := rfl
@[simp] theorem State.advance_fcause : (s.advance).fcause = s.fcause := rfl

@[simp] theorem State.countFetch_mem : (s.countFetch).mem = s.mem := rfl
@[simp] theorem State.countFetch_x : (s.countFetch).x = s.x := rfl
@[simp] theorem State.countFetch_ip : (s.countFetch).ip = s.ip := rfl
@[simp] theorem State.countFetch_icount : (s.countFetch).icount = s.icount + 1 := rfl
@[simp] theorem State.countFetch_budget : (s.countFetch).budget = s.budget := rfl
@[simp] theorem State.countFetch_running : (s.countFetch).running = s.running := rfl
@[simp] theorem State.countFetch_fcause : (s.countFetch).fcause = s.fcause := rfl

@[simp] theorem State.stop_mem : (s.stop).mem = s.mem := rfl
@[simp] theorem State.stop_x : (s.stop).x = s.x := rfl
@[simp] theorem State.stop_ip : (s.stop).ip = s.ip := rfl
@[simp] theorem State.stop_icount : (s.stop).icount = s.icount := rfl
@[simp] theorem State.stop_budget : (s.stop).budget = s.budget := rfl
@[simp] theorem State.stop_running : (s.stop).running = false := rfl
@[simp] theorem State.stop_fcause : (s.stop).fcause = s.fcause := rfl

@[simp] theorem raise_mem (f : Fault) : (raise f s).mem = s.mem := rfl
@[simp] theorem raise_x (f : Fault) : (raise f s).x = s.x := rfl
@[simp] theorem raise_ip (f : Fault) : (raise f s).ip = s.ip := rfl
@[simp] theorem raise_icount (f : Fault) : (raise f s).icount = s.icount := rfl
@[simp] theorem raise_budget (f : Fault) : (raise f s).budget = s.budget := rfl
@[simp] theorem raise_running (f : Fault) : (raise f s).running = false := rfl
@[simp] theorem raise_fcause (f : Fault) : (raise f s).fcause = some f := rfl

@[simp] theorem State.placeAtIp_mem (w : Nat) : (s.placeAtIp w).mem = s.mem.write s.ip w := rfl
@[simp] theorem State.placeAtIp_x (w : Nat) : (s.placeAtIp w).x = s.x := rfl
@[simp] theorem State.placeAtIp_ip (w : Nat) : (s.placeAtIp w).ip = s.ip := rfl
@[simp] theorem State.placeAtIp_icount (w : Nat) : (s.placeAtIp w).icount = s.icount := rfl
@[simp] theorem State.placeAtIp_budget (w : Nat) : (s.placeAtIp w).budget = s.budget := rfl
@[simp] theorem State.placeAtIp_running (w : Nat) : (s.placeAtIp w).running = s.running := rfl
@[simp] theorem State.placeAtIp_fcause (w : Nat) : (s.placeAtIp w).fcause = s.fcause := rfl

end Sys2Proof.Machine
end

