-- ==== Sys2Proof/Laws/Ops.lean ====
section
/-! SUPPORT. What each shared operation does, once: the reads of a register and of a cell after each update
of the state, and when a cell can be read or written. -/

namespace Sys2Proof.Machine

variable (s : State)

/-! ### Registers -/

/-- Register read after write, for every register, `x[0]` among them. -/
@[simp] theorem State.reg_setReg (d r : Digit) (v : Nat) :
    (s.setReg d v).reg r = if r = d then v else s.reg r := by
  simp only [State.reg, State.setReg, Vector.getElem_set, Fin.ext_iff, eq_comm]

@[simp] theorem State.reg_setCell (r : Digit) (a v : Nat) : (s.setCell a v).reg r = s.reg r := rfl
@[simp] theorem State.reg_setIp (r : Digit) (t : Nat) : (s.setIp t).reg r = s.reg r := rfl
@[simp] theorem State.reg_advance (r : Digit) : s.advance.reg r = s.reg r := rfl
@[simp] theorem State.reg_countFetch (r : Digit) : s.countFetch.reg r = s.reg r := rfl
@[simp] theorem State.reg_stop (r : Digit) : s.stop.reg r = s.reg r := rfl
@[simp] theorem State.reg_raise (r : Digit) (f : Fault) : (raise f s).reg r = s.reg r := rfl
@[simp] theorem State.reg_placeAtIp (r : Digit) (w : Nat) : (s.placeAtIp w).reg r = s.reg r := rfl

/-! ### Memory -/

@[simp] theorem State.memRead_setReg (d : Digit) (v : Nat) (a : Nat) :
    (s.setReg d v).memRead a = s.memRead a := rfl
@[simp] theorem State.memRead_setIp (t : Nat) (a : Nat) : (s.setIp t).memRead a = s.memRead a := rfl
@[simp] theorem State.memRead_advance (a : Nat) : s.advance.memRead a = s.memRead a := rfl
@[simp] theorem State.memRead_countFetch (a : Nat) : s.countFetch.memRead a = s.memRead a := rfl
@[simp] theorem State.memRead_stop (a : Nat) : s.stop.memRead a = s.memRead a := rfl
@[simp] theorem State.memRead_raise (f : Fault) (a : Nat) : (raise f s).memRead a = s.memRead a := rfl

/-- A read answers below 1000. -/
theorem State.memRead_of_lt {a : Nat} (h : a < 1000) : s.memRead a = some (s.mem.read a) := by
  simp [State.memRead, h]

/-- Nothing exists at 1000 and above. -/
theorem State.memRead_of_ge {a : Nat} (h : 1000 ≤ a) : s.memRead a = none := by
  simp [State.memRead, h]

theorem State.memRead_eq_some {s : State} {a : Nat} {v : Nat} :
    s.memRead a = some v ↔ a < 1000 ∧ s.mem.read a = v := by
  simp [State.memRead]

theorem State.memRead_eq_none {s : State} {a : Nat} : s.memRead a = none ↔ 1000 ≤ a := by
  simp [State.memRead]

/-- A write answers below 1000. -/
theorem State.memWrite_of_lt {a : Nat} (h : a < 1000) (v : Nat) :
    s.memWrite a v = some (s.setCell a v) := by
  simp [State.memWrite, h]

/-- There is nothing to write at 1000 and above. -/
theorem State.memWrite_of_ge {a : Nat} (h : 1000 ≤ a) (v : Nat) : s.memWrite a v = none := by
  simp [State.memWrite, h]

/-- Everything a write can do: it answers only below 1000, and then the memory alone changes. -/
theorem State.memWrite_eq_some {s t : State} {a : Nat} {v : Nat} :
    s.memWrite a v = some t ↔ a < 1000 ∧ t = s.setCell a v := by
  simp [State.memWrite, eq_comm]

/-- What a cell reads after a write of one cell below 1000. -/
theorem State.memRead_setCell {a : Nat} (h : a < 1000) (v : Nat) (b : Nat) :
    (s.setCell a v).memRead b = if b = a then some v else s.memRead b := by
  by_cases hb : b = a
  · simp [State.memRead, hb, h]
  · simp [State.memRead, hb]

/-- What a cell reads after a value is placed where the next step fetches. -/
theorem State.memRead_placeAtIp (h : s.ip < 1000) (w : Nat) (b : Nat) :
    (s.placeAtIp w).memRead b = if b = s.ip then some w else s.memRead b :=
  State.memRead_setCell s h w b

/-! ### The ALU and the condition -/

theorem aluAdd_lt (a b : Nat) : aluAdd a b < 1000 := Nat.mod_lt _ (by decide)

theorem aluMul_lt (a b : Nat) : aluMul a b < 1000 := Nat.mod_lt _ (by decide)

@[simp] theorem jumpTaken_iff (r : Digit) : jumpTaken r s = true ↔ s.reg r ≠ 0 := by
  simp [jumpTaken]

@[simp] theorem timedOut_iff : s.timedOut = true ↔ s.budget < s.icount := by
  simp [State.timedOut]

end Sys2Proof.Machine
end

