-- ==== Sys2Proof/Laws/PerInstr.lean ====
section
/-! SUPPORT. For each row of the opcode table: the cell value of a well-formed instruction lies in the range
`value_lo` to `value_hi` that spec/opcode_table.json gives the row (spec/30_encoding.md R58). -/

namespace Sys2Proof.Laws.TableRange

/-- The cell value of `i`, if `i` is well formed, is in its row's range. -/
def Statement (i : Instr) : Prop :=
  i.wf = true →
    match i with
    | .jnz _ _ => encode i ≤ 99
    | .halt => encode i = 100
    | .ldi _ _ => 200 ≤ encode i ∧ encode i ≤ 299
    | .addi _ _ => 300 ≤ encode i ∧ encode i ≤ 399
    | .muli _ _ => 400 ≤ encode i ∧ encode i ≤ 499
    | .mov _ _ => 500 ≤ encode i ∧ encode i ≤ 599
    | .add _ _ => 600 ≤ encode i ∧ encode i ≤ 699
    | .mul _ _ => 700 ≤ encode i ∧ encode i ≤ 799
    | .ld _ _ => 800 ≤ encode i ∧ encode i ≤ 899
    | .st _ _ => 900 ≤ encode i ∧ encode i ≤ 999
    | .illegal1xx _ _ => 101 ≤ encode i ∧ encode i ≤ 199
    | .illegalGt999 _ => 1000 ≤ encode i

/-- The range of the values with a given hundreds digit. -/
theorem digits_range (p q r : Digit) :
    100 * p.val ≤ digits p q r ∧ digits p q r ≤ 100 * p.val + 99 := by
  simp only [digits]
  omega

theorem jnz (t r : Digit) : Statement (.jnz t r) := fun _ => (digits_range 0 t r).2
theorem halt : Statement .halt := fun _ => rfl
theorem ldi (d n : Digit) : Statement (.ldi d n) := fun _ => digits_range 2 d n
theorem addi (d n : Digit) : Statement (.addi d n) := fun _ => digits_range 3 d n
theorem muli (d n : Digit) : Statement (.muli d n) := fun _ => digits_range 4 d n
theorem mov (d r : Digit) : Statement (.mov d r) := fun _ => digits_range 5 d r
theorem add (d r : Digit) : Statement (.add d r) := fun _ => digits_range 6 d r
theorem mul (d r : Digit) : Statement (.mul d r) := fun _ => digits_range 7 d r
theorem ld (d a : Digit) : Statement (.ld d a) := fun _ => digits_range 8 d a
theorem st (r a : Digit) : Statement (.st r a) := fun _ => digits_range 9 r a

theorem illegal1xx (p q : Digit) : Statement (.illegal1xx p q) := fun h => by
  have hne : ¬(p.val = 0 ∧ q.val = 0) := fun ⟨hp, hq⟩ => by
    simp [Instr.wf, Fin.ext (a := p) (b := 0) hp, Fin.ext (a := q) (b := 0) hq] at h
  show 101 ≤ digits 1 p q ∧ digits 1 p q ≤ 199
  simp only [digits, show (1 : Digit).val = 1 from rfl]
  omega

theorem illegalGt999 (v : Nat) : Statement (.illegalGt999 v) := fun h => by
  have h : 999 < v := by simpa [Instr.wf] using h
  exact h

end Sys2Proof.Laws.TableRange
end

