-- ==== Sys2Proof/Laws/Step.lean ====
section
/-! SUPPORT. Everything an instruction and a step can do, said once: later proofs take these cases and do
not unfold `exec` or `step`. -/

namespace Sys2Proof.Machine

/-! ### What each meaning answers -/

section
variable (s : State)

theorem exec_ldi (d n : Digit) : exec (.ldi d n) s = .next (s.setReg d n.val).advance := rfl

theorem exec_addi (d n : Digit) :
    exec (.addi d n) s = .next (s.setReg d (aluAdd (s.reg d) n.val)).advance := rfl

theorem exec_muli (d n : Digit) :
    exec (.muli d n) s = .next (s.setReg d (aluMul (s.reg d) n.val)).advance := rfl

theorem exec_mov (d r : Digit) : exec (.mov d r) s = .next (s.setReg d (s.reg r)).advance := rfl

theorem exec_add (d r : Digit) :
    exec (.add d r) s = .next (s.setReg d (aluAdd (s.reg d) (s.reg r))).advance := rfl

theorem exec_mul (d r : Digit) :
    exec (.mul d r) s = .next (s.setReg d (aluMul (s.reg d) (s.reg r))).advance := rfl

theorem exec_jnz (t r : Digit) :
    exec (.jnz t r) s = .next (if s.reg r = 0 then s.advance else s.setIp (s.reg t)) := by
  by_cases h : s.reg r = 0 <;> simp [exec, execJnz, jumpTaken, h]

theorem exec_halt : exec .halt s = .next s.stop := rfl

theorem exec_illegal1xx (p q : Digit) : exec (.illegal1xx p q) s = .next (raise .invalidOperands s) := rfl

theorem exec_illegalGt999 (v : Nat) : exec (.illegalGt999 v) s = .next (raise .invalidInstruction s) := rfl

variable {s}

theorem exec_ld {d a : Digit} {v : Nat} (h : s.memRead (s.reg a) = some v) :
    exec (.ld d a) s = .next (s.setReg d v).advance := by
  simp [exec, execLd, dataAddr, h]

theorem exec_ld_raises {a : Digit} (d : Digit) (h : 1000 ≤ s.reg a) :
    exec (.ld d a) s = .next (raise .invalidMemoryReference s) := by
  simp [exec, execLd, dataAddr, State.memRead_of_ge s h]

theorem exec_st {a : Digit} (r : Digit) (h : s.reg a < 1000) :
    exec (.st r a) s = .next (s.setCell (s.reg a) (s.reg r)).advance := by
  simp [exec, execSt, dataAddr, State.memWrite_of_lt s h]

theorem exec_st_raises {a : Digit} (r : Digit) (h : 1000 ≤ s.reg a) :
    exec (.st r a) s = .next (raise .invalidMemoryReference s) := by
  simp [exec, execSt, dataAddr, State.memWrite_of_ge s h]

end

/-- The ways in which an instruction changes the state. -/
inductive Effect (i : Instr) (s : State) : State → Prop where
  /-- `LDI` or one of the four arithmetic instructions: a value up to 999 is written. -/
  | result (d : Digit) (v : Nat) (h : writesReg i = some d) (hl : ∀ d a, i ≠ .ld d a)
      (hm : ∀ d r, i ≠ .mov d r) (hv : v ≤ 999) : Effect i s (s.setReg d v).advance
  /-- A register is copied. -/
  | copy (d r : Digit) (h : i = .mov d r) : Effect i s (s.setReg d (s.reg r)).advance
  /-- A cell is loaded. -/
  | load (d a : Digit) (v : Nat) (h : i = .ld d a) (hv : s.memRead (s.reg a) = some v) :
      Effect i s (s.setReg d v).advance
  /-- One cell is written and the pointer advances. -/
  | store (r a : Digit) (h : i = .st r a) (ha : s.reg a < 1000) :
      Effect i s (s.setCell (s.reg a) (s.reg r)).advance
  /-- A jump not taken. -/
  | fall (t r : Digit) (h : i = .jnz t r) (hr : s.reg r = 0) : Effect i s s.advance
  /-- A jump taken. -/
  | jump (t r : Digit) (h : i = .jnz t r) (hr : s.reg r ≠ 0) : Effect i s (s.setIp (s.reg t))
  /-- The halt. -/
  | halt (h : i = .halt) : Effect i s s.stop
  /-- A cell 101..199. -/
  | badOperands (p q : Digit) (h : i = .illegal1xx p q) : Effect i s (raise .invalidOperands s)
  /-- A cell above 999. -/
  | badCell (v : Nat) (h : i = .illegalGt999 v) : Effect i s (raise .invalidInstruction s)
  /-- A load or store at an address where nothing exists. -/
  | badAddress (d a : Digit) (h : i = .ld d a ∨ i = .st d a) (ha : 1000 ≤ s.reg a) :
      Effect i s (raise .invalidMemoryReference s)

/-- Every instruction answers a next state, and one of these is it. -/
theorem exec_effect (i : Instr) (s : State) : ∃ t, exec i s = .next t ∧ Effect i s t := by
  cases i with
  | jnz t r =>
    refine ⟨_, exec_jnz s t r, ?_⟩
    by_cases h : s.reg r = 0
    · simpa [h] using Effect.fall t r rfl h
    · simpa [h] using Effect.jump t r rfl h
  | halt => exact ⟨_, exec_halt s, .halt rfl⟩
  | ldi d n =>
    exact ⟨_, exec_ldi s d n, .result d _ rfl (by simp) (by simp) (by show n.val ≤ 999; omega)⟩
  | addi d n =>
    exact ⟨_, exec_addi s d n, .result d _ rfl (by simp) (by simp) (Nat.le_of_lt_succ (aluAdd_lt ..))⟩
  | muli d n =>
    exact ⟨_, exec_muli s d n, .result d _ rfl (by simp) (by simp) (Nat.le_of_lt_succ (aluMul_lt ..))⟩
  | mov d r => exact ⟨_, exec_mov s d r, .copy d r rfl⟩
  | add d r =>
    exact ⟨_, exec_add s d r, .result d _ rfl (by simp) (by simp) (Nat.le_of_lt_succ (aluAdd_lt ..))⟩
  | mul d r =>
    exact ⟨_, exec_mul s d r, .result d _ rfl (by simp) (by simp) (Nat.le_of_lt_succ (aluMul_lt ..))⟩
  | ld d a =>
    by_cases h : s.reg a < 1000
    · exact ⟨_, exec_ld (s.memRead_of_lt h), .load d a _ rfl (s.memRead_of_lt h)⟩
    · exact ⟨_, exec_ld_raises d (Nat.not_lt.mp h), .badAddress d a (.inl rfl) (Nat.not_lt.mp h)⟩
  | st r a =>
    by_cases h : s.reg a < 1000
    · exact ⟨_, exec_st r h, .store r a rfl h⟩
    · exact ⟨_, exec_st_raises r (Nat.not_lt.mp h), .badAddress r a (.inr rfl) (Nat.not_lt.mp h)⟩
  | illegal1xx p q => exact ⟨_, exec_illegal1xx s p q, .badOperands p q rfl⟩
  | illegalGt999 v => exact ⟨_, exec_illegalGt999 s v, .badCell v rfl⟩

/-- If an instruction answers a next state, one of the effects is it. -/
theorem effect_of_exec {i : Instr} {s t : State} (h : exec i s = .next t) : Effect i s t := by
  obtain ⟨u, hu, he⟩ := exec_effect i s
  rw [h] at hu
  cases hu
  exact he

/-! ### What a step answers -/

section
variable {s : State}

theorem step_stopped (h : s.running = false) : step s = .next s := by
  simp [step, stepControl, h]

theorem step_timeout (hr : s.running = true) (h : s.budget < s.icount) :
    step s = .next (raise .executionTimeout s) := by
  simp [step, stepControl, hr, State.timedOut, h]

theorem step_pointer (hr : s.running = true) (hb : s.icount ≤ s.budget) (h : 1000 ≤ s.ip) :
    step s = .next (raise .pointerOutOfRange s) := by
  simp [step, stepControl, hr, State.timedOut, BitVec.not_lt.mpr hb, State.fetch, State.memRead_of_ge s h]

theorem step_fetches {v : Nat} (h : Fetches s v) : step s = exec (decode v) s.countFetch := by
  obtain ⟨hr, hb, hv⟩ := h
  simp [step, stepControl, hr, State.timedOut, BitVec.not_lt.mpr hb, State.fetch, hv]

end

/-- The ways a step request goes: one of them holds of every state. -/
inductive StepCase (s : State) : State → Prop where
  | stopped (h : s.running = false) : StepCase s s
  | timeout (hr : s.running = true) (h : s.budget < s.icount) : StepCase s (raise .executionTimeout s)
  | pointer (hr : s.running = true) (hb : s.icount ≤ s.budget) (h : 1000 ≤ s.ip) :
      StepCase s (raise .pointerOutOfRange s)
  | runs (v : Nat) (t : State) (h : Fetches s v) (hx : exec (decode v) s.countFetch = .next t)
      (he : Effect (decode v) s.countFetch t) : StepCase s t

/-- Every step request answers a next state, in one of these ways. -/
theorem step_case (s : State) : ∃ t, step s = .next t ∧ StepCase s t := by
  cases hr : s.running with
  | false => exact ⟨s, step_stopped hr, .stopped hr⟩
  | true =>
    by_cases hb : s.budget < s.icount
    · exact ⟨_, step_timeout hr hb, .timeout hr hb⟩
    · have hb := BitVec.not_lt.mp hb
      by_cases hp : s.ip < 1000
      · have hf : Fetches s (s.mem.read s.ip) := ⟨hr, hb, s.memRead_of_lt hp⟩
        obtain ⟨t, ht, he⟩ := exec_effect (decode (s.mem.read s.ip)) s.countFetch
        exact ⟨t, (step_fetches hf).trans ht, .runs _ t hf ht he⟩
      · exact ⟨_, step_pointer hr hb (Nat.not_lt.mp hp), .pointer hr hb (Nat.not_lt.mp hp)⟩

/-- If a step answers a next state, it is one of the cases. -/
theorem case_of_step {s t : State} (h : step s = .next t) : StepCase s t := by
  obtain ⟨u, hu, hc⟩ := step_case s
  rw [h] at hu
  cases hu
  exact hc

theorem stepState_of_next {s t : State} (h : step s = .next t) : stepState s = t := by
  simp [stepState, h]

/-- `stepTimes` from the last step. -/
theorem stepTimes_succ (k : Nat) (s : State) : stepTimes (k + 1) s = stepState (stepTimes k s) := by
  induction k generalizing s with
  | zero => rfl
  | succ k ih => exact ih (stepState s)

/-- The induction over a run, once: what holds of a state and is kept by every step holds after every
number of steps. -/
theorem stepTimes_keeps {P : State → Prop} (hstep : ∀ s t, P s → step s = .next t → P t) {s : State}
    (h : P s) (k : Nat) : P (stepTimes k s) := by
  induction k generalizing s with
  | zero => exact h
  | succ k ih =>
    obtain ⟨t, ht, -⟩ := step_case s
    exact ih (stepState_of_next ht ▸ hstep s t h ht)

end Sys2Proof.Machine
end

