-- ==== Sys2Proof/Tests/Slice0.lean ====
section
/-! SUPPORT. The model's own tests. Expected results are the spec's: the worked examples and vectors of
spec/95_test_vectors.md, named in each comment, and the encodings of spec/30_encoding.md. The second part
shows, for every statement with hypotheses, concrete values that meet them. -/

namespace Sys2Proof.Tests
open Sys2Proof.Machine

/-- A running machine with the vectors' conventions: the given cells and registers, all else 0, budget
1000000 (spec/95_test_vectors.md, Conventions). -/
def machine (ip : Nat) (cells : Memory) (regs : List (Digit × Nat)) : State :=
  { State.reset with
    mem := cells
    ip := ip
    x := regs.foldl (fun x p => x.set p.1.val p.2) State.reset.x }

/-- The same with a counter and a budget. -/
def counted (ip : Nat) (cells : Memory) (regs : List (Digit × Nat)) (ic b : Count) : State :=
  { machine ip cells regs with icount := ic, budget := b }

/-! ### Well-formedness -/

theorem test_wf_refuses_illegal_00 : Instr.wf (.illegal1xx 0 0) = false := by decide
theorem test_wf_refuses_illegal_999 : Instr.wf (.illegalGt999 999) = false := by decide
theorem test_wf_accepts_illegal_bounds :
    Instr.wf (.illegal1xx 0 1) = true ∧ Instr.wf (.illegal1xx 1 0) = true ∧
      Instr.wf (.illegalGt999 1000) = true := by decide

/-! ### Decoding: words written out digit by digit from the encodings of R47 and R55 -/

theorem test_decode_jnz : decode (0 * 100 + 5 * 10 + 3) = .jnz 5 3 := by decide
theorem test_decode_jnz_last : decode 99 = .jnz 9 9 := by decide
theorem test_decode_halt : decode (1 * 100 + 0 * 10 + 0) = .halt := by decide
theorem test_decode_ldi : decode (2 * 100 + 3 * 10 + 5) = .ldi 3 5 := by decide
theorem test_decode_addi : decode (3 * 100 + 5 * 10 + 9) = .addi 5 9 := by decide
theorem test_decode_muli : decode (4 * 100 + 1 * 10 + 5) = .muli 1 5 := by decide
theorem test_decode_mov : decode (5 * 100 + 4 * 10 + 1) = .mov 4 1 := by decide
theorem test_decode_add : decode (6 * 100 + 4 * 10 + 3) = .add 4 3 := by decide
theorem test_decode_mul : decode (7 * 100 + 1 * 10 + 2) = .mul 1 2 := by decide
theorem test_decode_ld : decode (8 * 100 + 2 * 10 + 1) = .ld 2 1 := by decide
theorem test_decode_st : decode (9 * 100 + 4 * 10 + 1) = .st 4 1 := by decide
theorem test_decode_illegal1xx : decode 101 = .illegal1xx 0 1 ∧ decode 199 = .illegal1xx 9 9 := by decide
theorem test_decode_illegalGt999 :
    decode 999 = .st 9 9 ∧ decode 1000 = .illegalGt999 1000 := by decide
theorem test_table_word : decodeTableWord 16 900 = some (.st 0 0) := by decide

/-! ### One step -/

/-- JNZ-2: taken, backward. -/
theorem test_jnz_taken : (stepState (machine 6 [(6, 53)] [(3, 2), (5, 4)])).ip = 4 := by decide
/-- JNZ-8: a raw test value of 1000 is not 0. -/
theorem test_jnz_raw_test : (stepState (machine 2 [(2, 21)] [(1, 1000), (2, 8)])).ip = 8 := by decide
/-- HALT-2: the last cell, and the halt is counted. -/
theorem test_halt :
    let t := stepState (counted 999 [(999, 100)] [] 7 1000000)
    t.running = false ∧ t.fcause = none ∧ t.ip = 999 ∧ t.icount = 8 := by decide
/-- LDI-3. -/
theorem test_ldi : (stepState (machine 0 [(0, 235)] [(3, 742)])).reg 3 = 5 := by decide
/-- ADDI-2: wrap. -/
theorem test_addi_wraps : (stepState (machine 0 [(0, 319)] [(1, 995)])).reg 1 = 4 := by decide
/-- ADDI-5: a raw operand is reduced. -/
theorem test_addi_reduces : (stepState (machine 0 [(0, 350)] [(5, 5000)])).reg 5 = 0 := by decide
/-- MULI-3. -/
theorem test_muli : (stepState (machine 0 [(0, 419)] [(1, 999)])).reg 1 = 991 := by decide
/-- MOV-4: a raw value is copied raw. -/
theorem test_mov_raw : (stepState (machine 0 [(0, 512)] [(1, 1), (2, 5000)])).reg 1 = 5000 := by decide
/-- ADD-2: a register against itself. -/
theorem test_add_self : (stepState (machine 0 [(0, 611)] [(1, 700)])).reg 1 = 400 := by decide
/-- SRC-2: the product is exact. -/
theorem test_mul_wide : (stepState (machine 0 [(0, 712)] [(1, 999), (2, 999)])).reg 1 = 1 := by decide
/-- MUL-8: the widest raw operands of 16 bits. -/
theorem test_mul_raw : (stepState (machine 0 [(0, 712)] [(1, 65535), (2, 65535)])).reg 1 = 225 := by decide
/-- LD-2: the address is read before the register is written. -/
theorem test_ld_same : (stepState (machine 0 [(0, 811), (9, 42)] [(1, 9)])).reg 1 = 42 := by decide
/-- LD-4: the first illegal address. -/
theorem test_ld_fault :
    let t := stepState (machine 0 [(0, 821)] [(1, 1000)])
    t.fcause = some .invalidMemoryReference ∧ t.ip = 0 ∧ t.icount = 1 ∧ t.reg 2 = 0 := by decide
/-- ST-3: the last address; the FIRST operand is the source. -/
theorem test_st : (stepState (machine 0 [(0, 921)] [(1, 999), (2, 123)])).memRead 999 = some 123 := by decide
/-- ST-8: a store of 0 over the store itself leaves nothing listed. -/
theorem test_st_zero : (stepState (machine 0 [(0, 999)] [])).mem = [] := by decide
/-- HALT-6. -/
theorem test_illegal1xx :
    let t := stepState (machine 0 [(0, 123)] [(1, 5)])
    t.fcause = some .invalidOperands ∧ t.running = false ∧ t.icount = 1 ∧ t.ip = 0 := by decide
/-- SRC-6. -/
theorem test_illegalGt999 :
    let t := stepState (machine 0 [(0, 9999)] [])
    t.faultRecord.map (fun f => (f.kind, f.instr)) = some (.invalidInstruction, some 9999) ∧
      t.icount = 1 := by decide

/-! ### The step control and the host's operations -/

/-- STEP-1: `5 > 5` is false. -/
theorem test_budget_equal : (stepState (counted 0 [(0, 235)] [] 5 5)).reg 3 = 5 := by decide
/-- STEP-3: the timeout hides the pointer. -/
theorem test_timeout_first :
    let t := stepState (counted 1000 [] [] 6 5)
    t.fcause = some .executionTimeout ∧ t.icount = 6 ∧ t.ip = 1000 := by decide
/-- STEP-4. -/
theorem test_pointer :
    let t := stepState (counted 1000 [] [] 6 6)
    t.fcause = some .pointerOutOfRange ∧ t.icount = 6 := by decide
/-- STEP-13: a faulted machine reports its fault again and does not change. -/
theorem test_terminal :
    let t := stepState (machine 0 [(0, 1000)] [])
    hostStep t = (t, .fault .invalidInstruction) := by decide
/-- STEP-15, STEP-17: refused. The reasons are the model's (log entry 18). -/
theorem test_construct_refuses :
    construct 16 (List.replicate 1001 0) 5 = .refused .imageTooLong ∧
      construct 16 [65536] 5 = .refused .valueTooWide :=
  ⟨if_pos (by rw [List.length_replicate]; decide), by decide⟩
/-- Construction lists no zero cell. -/
theorem test_construct_memory :
    construct 16 [0, 821, 0, 5000] 5 =
      .built { State.reset with mem := [(1, 821), (3, 5000)], budget := 5 } := by decide
/-- The first instruction after reset is the one placed where the step fetches. -/
theorem test_fetch_word : (stepState (State.reset.withFetchWord 16 299)).reg 9 = 9 := by decide

/-! ### The hypotheses of the statements are met -/

theorem witness_DecodeOfEncodeIsIdentity :
    Instr.wf (.illegalGt999 1000) = true ∧ Instr.wf (.illegal1xx 0 1) = true ∧ Instr.wf .halt = true := by
  decide

theorem witness_EveryCellValueHasOneReading : Instr.wf (.ld 9 9) = true ∧ encode (.ld 9 9) = 899 := by decide

/-- Each clause at both ends of its range. -/
theorem witness_DecoderFollowsOpcodeMap :
    (∀ v ∈ [0, 99], v ≤ 999 ∧ v / 100 = 0) ∧ (∀ v ∈ [101, 199], v ≤ 999 ∧ v / 100 = 1 ∧ v ≠ 100) ∧
      (∀ v ∈ [200, 299], v ≤ 999 ∧ v / 100 = 2) ∧ (∀ v ∈ [300, 399], v ≤ 999 ∧ v / 100 = 3) ∧
      (∀ v ∈ [400, 499], v ≤ 999 ∧ v / 100 = 4) ∧ (∀ v ∈ [500, 599], v ≤ 999 ∧ v / 100 = 5) ∧
      (∀ v ∈ [600, 699], v ≤ 999 ∧ v / 100 = 6) ∧ (∀ v ∈ [700, 799], v ≤ 999 ∧ v / 100 = 7) ∧
      (∀ v ∈ [800, 899], v ≤ 999 ∧ v / 100 = 8) ∧ (∀ v ∈ [900, 999], v ≤ 999 ∧ v / 100 = 9) := by decide

/-- A load whose address is 999 or 1000. -/
def loadAt (addr : Nat) : State := machine 0 [(0, 821)] [(1, addr)]
/-- A store whose address is given. -/
def storeAt (addr : Nat) : State := machine 0 [(0, 921)] [(1, addr), (2, 7)]
/-- A taken jump to a given target, at `ip` 2, with one instruction left or none. -/
def jumpTo (target : Nat) (b : Count) : State := counted 2 [(2, 21)] [(1, 1), (2, target)] 2 b
/-- A machine about to fetch the given nonzero cell value. -/
def about (v : Nat) : State := machine 0 [(0, v)] []
/-- A machine whose budget is spent. -/
def spent (ip : Nat) : State := counted ip [(0, 100)] [] 6 5
/-- A machine whose pointer is 1000. -/
def lost : State := machine 1000 [] []

theorem about_fetches (v : Nat) : Fetches (about v) v := by
  refine ⟨rfl, show (0 : Count) ≤ Config.resetBudget by decide, ?_⟩
  simp [about, machine, State.reset, State.memRead, Memory.read]

theorem witness_LdCopiesCellOrFaults :
    (loadAt 999).reg 1 ≤ 999 ∧ 999 < (loadAt 1000).reg 1 ∧ Fetches (loadAt 1000) (800 + 10 * 2 + 1) :=
  ⟨by decide, by decide, rfl, by decide, by decide⟩

theorem witness_StWritesCellOrFaults :
    dataAddr 1 (storeAt 999) = 999 ∧ dataAddr 1 (storeAt 0) = 0 ∧ 999 < (storeAt 1000).reg 1 ∧
      Fetches (storeAt 1000) (900 + 10 * 2 + 1) :=
  ⟨by decide, by decide, by decide, rfl, by decide, by decide⟩

/-- The jump not taken, and the target 1000 with budget left and with none. -/
theorem witness_JnzJumpsUncheckedOrFallsThrough :
    (about 21).reg 1 = 0 ∧ (jumpTo 1000 5).reg 1 ≠ 0 ∧ 1000 ≤ (jumpTo 1000 5).reg 2 ∧
      Fetches (jumpTo 1000 5) (10 * 2 + 1) ∧ Fetches (jumpTo 1000 2) (10 * 2 + 1) ∧
      (jumpTo 1000 2).budget < (jumpTo 1000 2).icount + 1 :=
  ⟨by decide, by decide, by decide, ⟨rfl, by decide, by decide⟩, ⟨rfl, by decide, by decide⟩, by decide⟩

theorem witness_HaltStopsCleanly :
    Fetches (about 100) 100 ∧ step (about 100) = .next (stepState (about 100)) ∧
      (about 100).fcause = none ∧ Fetches (about 101) 101 ∧ Fetches (about 199) 199 ∧
      (spent 0).running = true ∧ (spent 0).budget < (spent 0).icount ∧ (spent 0).memRead 0 = some 100 :=
  ⟨about_fetches _, rfl, rfl, about_fetches _, about_fetches _, rfl,
    by decide, by decide⟩

theorem witness_HaltFamilyWithOperandsFaults :
    ¬((0 : Digit) = 0 ∧ (1 : Digit) = 0) ∧ Fetches (about 101) (100 + 10 * 0 + 1) ∧
      step (about 101) = .next (stepState (about 101)) ∧ (about 101).fcause ≠ some .invalidOperands ∧
      exec (.illegal1xx 0 1) (about 101) = .next (raise .invalidOperands (about 101)) ∧
      (raise .invalidOperands (about 101)).fcause = some .invalidOperands :=
  ⟨by decide, about_fetches _, rfl, by decide, rfl, rfl⟩

theorem witness_CellAbove999Faults :
    999 < 1000 ∧ Fetches (about 1000) 1000 ∧ (about 1000).fcause ≠ some .invalidInstruction ∧
      exec (.illegalGt999 1000) (about 1000) = .next (raise .invalidInstruction (about 1000)) ∧
      (raise .invalidInstruction (about 1000)).fcause = some .invalidInstruction :=
  ⟨by decide, about_fetches _, by decide, rfl, rfl⟩

theorem witness_AluLawsHold :
    (∃ t, exec (.addi 1 9) (about 319) = .next t) ∧ (∃ t, exec (.add 1 2) (about 319) = .next t) ∧
      (∃ t, exec (.muli 1 9) (about 319) = .next t) ∧ ∃ t, exec (.mul 1 2) (about 319) = .next t :=
  ⟨⟨_, rfl⟩, ⟨_, rfl⟩, ⟨_, rfl⟩, _, rfl⟩

/-- The four ways of a running machine's step, at the boundary values of each check. -/
theorem witness_StepFollowsPhaseOrder :
    ((spent 0).running = true ∧ (spent 0).budget < (spent 0).icount) ∧
      (lost.running = true ∧ lost.icount ≤ lost.budget ∧ 1000 ≤ lost.ip) ∧
      Fetches (about 1000) 1000 ∧ Fetches (about 999) 999 ∧
      Fetches (counted 999 [(999, 235)] [] 5 5) 235 :=
  ⟨⟨rfl, by decide⟩, ⟨rfl, by decide, by decide⟩, about_fetches _, about_fetches _,
    rfl, by decide, by decide⟩

theorem witness_StepRunsDecodedInstruction :
    (about 235).running = true ∧ (about 235).icount ≤ (about 235).budget ∧
      (about 235).memRead (about 235).ip = some 235 ∧ decode 235 = .ldi 3 5 := by
  decide

theorem witness_TimeoutIsABudgetCheck :
    ((spent 1000).running = true ∧ (spent 1000).budget < (spent 1000).icount) ∧
      (step (spent 0) = .next (stepState (spent 0)) ∧ (spent 0).fcause ≠ some .executionTimeout ∧
        (stepState (spent 0)).fcause = some .executionTimeout) ∧
      (∃ t, exec .halt (about 100) = .next t) ∧ (about 100).fcause ≠ some .executionTimeout ∧
      (spent 0).budget.toNat < 2 ^ 64 - 1 ∧ CounterBounded (spent 0) :=
  ⟨⟨rfl, by decide⟩, ⟨rfl, by decide, by decide⟩, ⟨_, rfl⟩, by decide, by decide, fun _ => by decide⟩

/-- The pointer at 1000, the advance from 999, and a taken jump to 1000. -/
theorem witness_PointerFaultAndItsTwoCauses :
    (lost.running = true ∧ lost.icount ≤ lost.budget ∧ 1000 ≤ lost.ip ∧
        step lost = .next (stepState lost)) ∧
      (step (machine 999 [] []) = .next (stepState (machine 999 [] [])) ∧
        (machine 999 [] []).ip ≤ 999 ∧ 1000 ≤ (stepState (machine 999 [] [])).ip) ∧
      (step (jumpTo 1000 5) = .next (stepState (jumpTo 1000 5)) ∧ (jumpTo 1000 5).ip ≤ 999 ∧
        1000 ≤ (stepState (jumpTo 1000 5)).ip) :=
  ⟨⟨rfl, by decide, by decide, rfl⟩, ⟨rfl, by decide, by decide⟩, rfl, by decide, by decide⟩

theorem witness_MemoryFaultOnlyFromLoadOrStore :
    (Fetches (loadAt 1000) (100 * 8 + 10 * 2 + 1) ∧ 999 < (loadAt 1000).reg 1 ∧
        step (loadAt 1000) = .next (stepState (loadAt 1000))) ∧
      (Fetches (storeAt 1000) (100 * 9 + 10 * 2 + 1) ∧ 999 < (storeAt 1000).reg 1 ∧
        step (storeAt 1000) = .next (stepState (storeAt 1000))) ∧
      exec (.ld 2 1) (loadAt 1000) = .next (raise .invalidMemoryReference (loadAt 1000)) ∧
      (loadAt 1000).fcause ≠ some .invalidMemoryReference :=
  ⟨⟨⟨rfl, by decide, by decide⟩, by decide, rfl⟩, ⟨⟨rfl, by decide, by decide⟩, by decide, rfl⟩, rfl,
    by decide⟩

/-- The machines that serve the statements about what a step does to a running machine with no fault
latched: one for each of the five faults, one for the halt, and one that goes on. -/
def stepped : List State := [spent 0, lost, about 1000, about 101, loadAt 1000, about 100, about 235]

theorem stepped_runs_without_fault : ∀ s ∈ stepped, s.running = true ∧ s.fcause = none := by decide

theorem stepped_answers : ∀ s ∈ stepped, step s = .next (stepState s) := by
  intro s h
  simp only [stepped, List.mem_cons, List.not_mem_nil, or_false] at h
  rcases h with rfl | rfl | rfl | rfl | rfl | rfl | rfl <;> rfl

theorem stepped_takes_each_fault :
    stepped.map (fun s => (stepState s).fcause) =
      [some .executionTimeout, some .pointerOutOfRange, some .invalidInstruction, some .invalidOperands,
        some .invalidMemoryReference, none, none] := by decide

/-- Each clause on the latch after the step is met by one of `stepped`. -/
theorem witness_CounterIsAsymmetricAcrossFaults : ∀ s ∈ stepped,
    s.running = true ∧ s.fcause = none ∧ step s = .next (stepState s) := fun s h =>
  ⟨(stepped_runs_without_fault s h).1, (stepped_runs_without_fault s h).2, stepped_answers s h⟩

/-- Both sides of each equivalence are met by one of `stepped`. -/
theorem witness_FirstFailingCheckWins : ∀ s ∈ stepped,
    s.running = true ∧ s.fcause = none ∧ step s = .next (stepState s) :=
  witness_CounterIsAsymmetricAcrossFaults

theorem witness_FaultsArePrecise :
    (loadAt 1000).running = true ∧ (loadAt 1000).fcause = none ∧
      step (loadAt 1000) = .next (stepState (loadAt 1000)) ∧
      (stepState (loadAt 1000)).fcause = some .invalidMemoryReference := ⟨rfl, rfl, rfl, by decide⟩

/-- A fault with the pointer in range, and one with the pointer at 1000. -/
theorem witness_FaultRecordShowsTheFaultingState :
    ((about 1000).running = true ∧ (about 1000).fcause = none ∧ (about 1000).ip ≤ 999 ∧
        step (about 1000) = .next (stepState (about 1000)) ∧
        (stepState (about 1000)).fcause = some .invalidInstruction) ∧
      (lost.running = true ∧ lost.fcause = none ∧ 999 < lost.ip ∧ step lost = .next (stepState lost) ∧
        (stepState lost).fcause = some .pointerOutOfRange) :=
  ⟨⟨rfl, rfl, by decide, rfl, by decide⟩, rfl, rfl, by decide, rfl, by decide⟩

theorem witness_FaultLatchIsNeverRead : step (about 235) = .next (stepState (about 235)) := rfl

/-- A step that goes on and one that is not reached for each check: budget, pointer, terminal state. -/
theorem witness_CounterCountsFetches :
    construct 16 [100] 5 = .built { State.reset with mem := [(0, 100)], budget := 5 } ∧
      ((about 235).running = true ∧ (about 235).icount ≤ (about 235).budget ∧ (about 235).ip < 1000) ∧
      (stepState (about 100)).running = false ∧ (spent 0).budget < (spent 0).icount ∧ 1000 ≤ lost.ip := by
  decide

theorem witness_BudgetIsReadOnlyByTheBudgetCheck :
    construct 16 [235] 5 = .built { State.reset with mem := [(0, 235)], budget := 5 } ∧
      ((about 235).icount ≤ (about 235).budget ↔ (about 235).icount ≤ 0) ∧
      ((spent 0).icount ≤ (spent 0).budget ↔ (spent 0).icount ≤ 0) := by decide

theorem witness_PointerChangesInThreeWays :
    (about 235).running = true ∧ step (about 235) = .next (stepState (about 235)) ∧ 14 ≤ 14 ∧
      FitsWidth 14 (about 235) :=
  ⟨rfl, rfl, by decide, fun a v h => by
    simp only [State.memRead, about, machine, Memory.read] at h
    split at h <;> simp at h
    subst h
    split <;> decide, by decide, by decide⟩

/-- A register written, one not read, and the jump not taken. -/
theorem witness_RegistersReadAndWrittenByTheTable :
    exec (.ldi 3 5) (about 235) = .next ((about 235).setReg 3 5).advance ∧
      ((about 235).setReg 3 5).advance.reg 3 ≠ (about 235).reg 3 ∧ (3 : Digit) ∉ readsRegs (.ldi 3 5) ∧
      (2 : Digit) ∉ readsRegs (.ld 2 1) ∧ (2 : Digit) ≠ 1 ∧ (about 21).reg 1 = 0 :=
  ⟨rfl, by decide⟩

theorem witness_OnlyAStoreChangesACell :
    step (storeAt 999) = .next (stepState (storeAt 999)) ∧
      (stepState (storeAt 999)).memRead 999 ≠ (storeAt 999).memRead 999 :=
  ⟨rfl, by decide⟩

theorem witness_StoreIsSeenByTheNextFetch :
    let s := counted 998 [(998, 921)] [(1, 999), (2, 100)] 5 6
    Fetches s (900 + 10 * 2 + 1) ∧ s.reg 1 = s.ip + 1 ∧ s.ip + 1 ≤ 999 ∧ s.icount + 1 ≤ s.budget :=
  ⟨⟨rfl, by decide, by decide⟩, by decide, by decide, by decide⟩

/-- Each row of the transition table, at the ends of its range of cell values. -/
theorem witness_TransitionTableHolds :
    (stepState (about 100)).running = false ∧ (spent 0).budget < (spent 0).icount ∧
      (lost.icount ≤ lost.budget ∧ 1000 ≤ lost.ip) ∧ Fetches (about 1000) 1000 ∧
      Fetches (about 101) 101 ∧ Fetches (about 199) 199 ∧ Fetches (about 100) 100 ∧
      (Fetches (loadAt 1000) (100 * 8 + 10 * 2 + 1) ∧ 999 < (loadAt 1000).reg 1) ∧
      (Fetches (storeAt 999) (100 * 9 + 10 * 2 + 1) ∧ (storeAt 999).reg 1 ≤ 999) ∧
      Fetches (about 99) (100 * 0 + 10 * 9 + 9) ∧ Fetches (about 200) (100 * 2 + 10 * 0 + 0) :=
  ⟨by decide, by decide, by decide, about_fetches _, about_fetches _,
    about_fetches _, about_fetches _, ⟨⟨rfl, by decide, by decide⟩, by decide⟩,
    ⟨⟨rfl, by decide, by decide⟩, by decide⟩, about_fetches _, about_fetches _⟩

/-- A halted machine and a faulted one. -/
theorem witness_TerminalStepReportsLatchedOutcome :
    ((stepState (about 100)).running = false ∧ (stepState (about 100)).fcause = none) ∧
      (stepState (about 101)).running = false ∧
      (stepState (about 101)).fcause = some .invalidOperands := by decide

theorem witness_StoppedMachineIsFrozenAtTheCulprit :
    (∀ s ∈ stepped, s.running = true ∧ s.fcause = none ∧ step s = .next (stepState s)) ∧
      ∀ s ∈ [spent 0, lost, about 1000, about 101, loadAt 1000, about 100],
        (stepState s).running = false :=
  ⟨witness_CounterIsAsymmetricAcrossFaults, by decide⟩

theorem witness_HostStepReportsOkOrTheFault :
    (stepState (about 100)).running = false ∧
      ((about 100).running = true ∧ (about 100).fcause = none) ∧
      ((about 101).running = true ∧ (about 101).fcause = none) ∧
      hostStep (about 100) = (stepState (about 100), .ok) ∧
      hostStep (about 101) = (stepState (about 101), .fault .invalidOperands) := by decide

/-- An image too long, a value of `2^16`, and an image of 1000 cells with the value `2^16 - 1`. -/
theorem witness_ConstructLoadsTheImage :
    1000 < (List.replicate 1001 0).length ∧ (∃ v ∈ [65536], 2 ^ 16 ≤ v) ∧
      (List.replicate 1000 65535).length ≤ 1000 ∧ ∀ v ∈ List.replicate 1000 65535, v < 2 ^ 16 :=
  ⟨by rw [List.length_replicate]; decide, by decide, by rw [List.length_replicate],
    fun v h => by rw [List.eq_of_mem_replicate h]; decide⟩

theorem witness_StepKeepsStateLegal :
    Legal (storeAt 999) ∧ step (storeAt 999) = .next (stepState (storeAt 999)) :=
  ⟨⟨by decide, fun _ => rfl⟩, rfl⟩

theorem witness_StepKeepsValuesBounded :
    999 ≤ 999 ∧ step (storeAt 999) = .next (stepState (storeAt 999)) ∧ Bounded 999 (storeAt 999) :=
  ⟨by decide, rfl, fun a v h => by
    simp only [State.memRead, storeAt, machine, Memory.read] at h
    split at h <;> simp at h
    subst h
    split <;> decide, by decide, by decide⟩

theorem witness_StorageWidthDoesNotMatter :
    14 ≤ 14 ∧ 14 ≤ 16 ∧
      construct 14 [16383] 5 = .built { State.reset with mem := [(0, 16383)], budget := 5 } := by decide

theorem witness_CanonicalImageStaysCanonical :
    (∀ v ∈ [999, 0], v ≤ 999) ∧
      construct 16 [999, 0] 5 = .built { State.reset with mem := [(0, 999)], budget := 5 } := by decide

/-- A store at the last address, of a canonical machine. -/
theorem witness_StepKeepsCanonicalWithoutMemoryFault :
    Canonical (storeAt 999) ∧ (storeAt 999).fcause ≠ some .invalidMemoryReference ∧
      step (storeAt 999) = .next (stepState (storeAt 999)) :=
  ⟨⟨witness_StepKeepsValuesBounded.2.2.1, by decide⟩, by decide, rfl⟩

theorem witness_CounterNeverPassesBudgetByMoreThanOne :
    (spent 0).budget.toNat < 2 ^ 64 - 1 ∧ CounterBounded (spent 0) ∧
      step (spent 0) = .next (stepState (spent 0)) ∧ (spent 0).running = true ∧
      (spent 0).icount.toNat = (spent 0).budget.toNat + 1 :=
  ⟨by decide, fun _ => by decide, rfl, rfl, by decide⟩

theorem witness_CounterWrapsOnlyAtTheGreatestBudget :
    let s := counted 0 [(0, 235)] [] 0xFFFFFFFFFFFFFFFF 0xFFFFFFFFFFFFFFFF
    step s = .next (stepState s) ∧ (stepState s).icount.toNat < s.icount.toNat :=
  ⟨rfl, by decide⟩

/-- Program P5 with budget 1: two instructions execute, and the machine is running after them. -/
theorem witness_BudgetPermitsOneMoreInstruction :
    (1 : Count).toNat < 2 ^ 64 - 1 ∧
      construct 16 [211, 1] 1 = .built { State.reset with mem := [(0, 211), (1, 1)], budget := 1 } ∧
      ∀ k, k ≤ (1 : Count).toNat + 1 →
        (stepTimes k { State.reset with mem := [(0, 211), (1, 1)], budget := 1 }).running = true := by
  refine ⟨by decide, by decide, fun k hk => ?_⟩
  have hk : k = 0 ∨ k = 1 ∨ k = 2 := by
    simp at hk
    omega
  rcases hk with rfl | rfl | rfl <;> decide

theorem witness_RunEndsWithinBudgetPlusTwo : (about 100).budget.toNat < 2 ^ 64 - 1 := by decide

end Sys2Proof.Tests
end

section
/-! PROOFS. The state items of spec/10_state.md one by one: the counter (R14), the budget (R16), the pointer
(R13) and the registers (R12). Each part proves once what the instructions do with its item and settles the
obligations about it from that. -/

namespace Sys2Proof

/-! ### The decoder inverted -/

/-- The cell value of the row a value decodes to is the value. -/
@[simp] theorem encode_decode (v : Nat) : encode (decode v) = v := by
  by_cases hv : 999 < v
  · simp [decode_of_gt hv, encode]
  · rw [← digits_of_le (Nat.not_lt.mp hv)]
    generalize d1 v = p, d2 v = q, d3 v = r
    match p with
    | 1 =>
      by_cases h : q = 0 ∧ r = 0
      · simp [h, encode]
      · simp [h, encode]
    | 0 | 2 | 3 | 4 | 5 | 6 | 7 | 8 | 9 => simp [encode]

namespace Machine

/-- An instruction that writes a register is of one of the families 2 to 8. -/
theorem encode_range_of_writesReg {i : Instr} {d : Digit} (h : writesReg i = some d) :
    200 ≤ encode i ∧ encode i ≤ 999 := by
  cases i with
  | ldi | addi | muli | mov | add | mul | ld =>
    simp only [encode, digits]
    omega
  | jnz | halt | st | illegal1xx | illegalGt999 => simp [writesReg] at h

/-- What is fetched stands at an address below 1000. -/
theorem Fetches.ip_lt {s : State} {v : Nat} (h : Fetches s v) : s.ip < 1000 := by
  obtain ⟨-, -, hv⟩ := h
  exact (State.memRead_eq_some.mp hv).1

/-! ### The counter and the budget -/

/-- `s` with other values in the counter and the budget. -/
def State.withCounts (s : State) (n b : Count) : State := { s with icount := n, budget := b }

@[simp] theorem State.reg_withCounts (s : State) (n b : Count) (r : Digit) :
    (s.withCounts n b).reg r = s.reg r := rfl

/-- No instruction writes the counter or the budget. -/
theorem Effect.keeps_counts {i : Instr} {s t : State} (h : Effect i s t) :
    t.icount = s.icount ∧ t.budget = s.budget := by
  cases h <;> exact ⟨rfl, rfl⟩

/-- No instruction reads the counter or the budget. -/
theorem exec_withCounts {i : Instr} {s t : State} (n b : Count) (h : exec i s = .next t) :
    exec i (s.withCounts n b) = .next (t.withCounts n b) := by
  cases i with
  | jnz g r =>
    rw [exec_jnz] at h ⊢
    cases h
    by_cases hr : s.reg r = 0
    · simp only [State.reg_withCounts, hr, if_true]
      rfl
    · simp only [State.reg_withCounts, hr, if_false]
      rfl
  | ld d a =>
    by_cases ha : s.reg a < 1000
    · have hv := s.memRead_of_lt ha
      rw [exec_ld hv] at h
      cases h
      exact exec_ld (s := s.withCounts n b) hv
    · have ha := Nat.not_lt.mp ha
      rw [exec_ld_raises d ha] at h
      cases h
      exact exec_ld_raises (s := s.withCounts n b) d ha
  | st r a =>
    by_cases ha : s.reg a < 1000
    · rw [exec_st r ha] at h
      cases h
      exact exec_st (s := s.withCounts n b) r ha
    · have ha := Nat.not_lt.mp ha
      rw [exec_st_raises r ha] at h
      cases h
      exact exec_st_raises (s := s.withCounts n b) r ha
  | halt | ldi | addi | muli | mov | add | mul | illegal1xx | illegalGt999 => cases h; rfl

/-- No instruction reads the counter. -/
theorem exec_withIcount {i : Instr} {s t : State} (c : Count) (h : exec i s = .next t) :
    exec i { s with icount := c } = .next { t with icount := c } := by
  refine (exec_withCounts c s.budget h).trans ?_
  rw [← (effect_of_exec h).keeps_counts.2, State.withCounts]

/-- No instruction reads the budget. -/
theorem exec_withBudget {i : Instr} {s t : State} (c : Count) (h : exec i s = .next t) :
    exec i { s with budget := c } = .next { t with budget := c } := by
  refine (exec_withCounts s.icount c h).trans ?_
  rw [← (effect_of_exec h).keeps_counts.1, State.withCounts]

/-- What construction builds, and from which images (spec/70_reset_and_hazards.md R141): the machine of
`State.reset` with the image loaded and the budget supplied. -/
theorem construct_eq_built {W : Nat} {img : List Nat} {b : Count} {s : State} :
    construct W img b = .built s ↔ img.length ≤ 1000 ∧ (∀ v ∈ img, v < 2 ^ W) ∧
      s = { State.reset with mem := Memory.ofImage 0 img, budget := b } := by
  by_cases hl : 1000 < img.length
  · simp [construct, hl]
  · by_cases hw : ∃ v ∈ img, 2 ^ W ≤ v
    · simp [construct, hl, hw]
    · have hlen : img.length ≤ 1000 := Nat.not_lt.mp hl
      have hfit : ∀ v ∈ img, v < 2 ^ W := by simpa using hw
      simpa [construct, hl, hw, hlen, State.reset, @eq_comm _ s] using fun _ => hfit

/-- Settles O26, by the cases of a step: only the one that reaches the fetch counts, and `exec` neither
writes nor reads the counter. -/
theorem counterCountsFetches : Obligations.CounterCountsFetches := by
  refine ⟨fun W img b s h => ?_, fun s t h => ?_, fun i s t c h => ?_⟩
  · obtain ⟨-, -, rfl⟩ := construct_eq_built.mp h
    rfl
  · cases case_of_step h with
    | stopped hr => simp [hr]
    | timeout hr hb => exact ⟨fun _ hle => absurd hb (BitVec.not_lt.mpr hle), fun _ => rfl⟩
    | pointer hr hb hp => exact ⟨fun _ _ hlt => absurd hlt (Nat.not_lt.mpr hp), fun _ => rfl⟩
    | runs v t hf hx he =>
      have hp := hf.ip_lt
      obtain ⟨hr, hb, -⟩ := hf
      refine ⟨fun _ _ _ => he.keeps_counts.1, ?_⟩
      rintro (hr' | hb' | hp')
      · simp [hr] at hr'
      · exact absurd hb' (BitVec.not_lt.mpr hb)
      · omega
  · exact ⟨(effect_of_exec h).keeps_counts.1, exec_withIcount c h⟩

/-- The step with another budget on which the check of phase 1 agrees. -/
theorem step_withBudget {s t : State} {c : Count} (hc : s.icount ≤ s.budget ↔ s.icount ≤ c)
    (h : step s = .next t) : step { s with budget := c } = .next { t with budget := c } := by
  cases case_of_step h with
  | stopped hr => exact step_stopped hr
  | timeout hr hb =>
    have hb' : c < s.icount := BitVec.not_le.mp (mt hc.mpr (BitVec.not_le.mpr hb))
    exact step_timeout hr hb'
  | pointer hr hb hp => exact step_pointer hr (hc.mp hb) hp
  | runs v t hf hx he =>
    obtain ⟨hr, hb, hv⟩ := hf
    have hf' : Fetches { s with budget := c } v := ⟨hr, hc.mp hb, hv⟩
    exact (step_fetches hf').trans (exec_withBudget c hx)

/-- Settles O27: `exec` neither writes nor reads the budget, so a step depends on it through phase 1
alone. -/
theorem budgetIsReadOnlyByTheBudgetCheck : Obligations.BudgetIsReadOnlyByTheBudgetCheck := by
  refine ⟨fun W img b c s h => ?_, fun s t h => ?_, fun i s t c h => exec_withBudget c h,
    fun s t c hc h => step_withBudget hc h, fun s c => rfl⟩
  · obtain ⟨hl, hw, rfl⟩ := construct_eq_built.mp h
    exact ⟨rfl, construct_eq_built.mpr ⟨hl, hw, rfl⟩⟩
  · cases case_of_step h with
    | stopped | timeout | pointer => rfl
    | runs v t hf hx he => exact he.keeps_counts.2

/-! ### The pointer -/

/-- The ways in which an instruction leaves the pointer: it stops the machine where it is, or it advances
(families 2 to 9), or it is a `JNZ`. -/
theorem Effect.pointer {i : Instr} {s t : State} (he : Effect i s t) :
    (t.running = false ∧ t.ip = s.ip) ∨
      (t.running = s.running ∧
        ((200 ≤ encode i ∧ encode i ≤ 999 ∧ t.ip = s.ip + 1) ∨
          ∃ g r : Digit, i = .jnz g r ∧
            ((s.reg r = 0 ∧ t.ip = s.ip + 1) ∨ (s.reg r ≠ 0 ∧ t.ip = s.reg g)))) := by
  cases he with
  | result d v h =>
    obtain ⟨hlo, hhi⟩ := encode_range_of_writesReg h
    exact .inr ⟨rfl, .inl ⟨hlo, hhi, rfl⟩⟩
  | copy d r h =>
    obtain ⟨hlo, hhi⟩ := encode_range_of_writesReg (i := i) (d := d) (by simp [h, writesReg])
    exact .inr ⟨rfl, .inl ⟨hlo, hhi, rfl⟩⟩
  | load d a v h =>
    obtain ⟨hlo, hhi⟩ := encode_range_of_writesReg (i := i) (d := d) (by simp [h, writesReg])
    exact .inr ⟨rfl, .inl ⟨hlo, hhi, rfl⟩⟩
  | store r a h =>
    subst h
    obtain ⟨hlo, hhi⟩ := Laws.TableRange.st r a rfl
    exact .inr ⟨rfl, .inl ⟨by omega, by omega, rfl⟩⟩
  | fall g r h hr => exact .inr ⟨rfl, .inr ⟨g, r, h, .inl ⟨hr, rfl⟩⟩⟩
  | jump g r h hr => exact .inr ⟨rfl, .inr ⟨g, r, h, .inr ⟨hr, rfl⟩⟩⟩
  | halt | badOperands | badCell | badAddress => exact .inl ⟨rfl, rfl⟩

/-- The ways in which a step of a running machine leaves the pointer, by the value of the cell fetched. -/
theorem step_pointer_cases {s t : State} (hr : s.running = true) (h : step s = .next t) :
    (t.running = false ∧ t.ip = s.ip) ∨
      (t.running = true ∧ s.ip ≤ 999 ∧ ∃ v, Fetches s v ∧
        ((200 ≤ v ∧ v ≤ 999 ∧ t.ip = s.ip + 1) ∨
          ∃ g r : Digit, v = 10 * g.val + r.val ∧
            ((s.reg r = 0 ∧ t.ip = s.ip + 1) ∨ (s.reg r ≠ 0 ∧ t.ip = s.reg g)))) := by
  cases case_of_step h with
  | stopped hs => simp [hr] at hs
  | timeout | pointer => exact .inl ⟨rfl, rfl⟩
  | runs v t hf hx he =>
    obtain hstop | ⟨hrun, hway⟩ := he.pointer
    · exact .inl hstop
    · refine .inr ⟨hrun.trans hr, Nat.le_of_lt_succ hf.ip_lt, v, hf, ?_⟩
      obtain hseq | ⟨g, r, hi, hj⟩ := hway
      · exact .inl (by simpa using hseq)
      · have hv : v = digits 0 g r := by rw [← encode_decode v, hi, encode]
        exact .inr ⟨g, r, by simpa [digits] using hv, hj⟩

/-- Settles O28, from the cases of a step; the width follows because the pointer is at most 999 where it
advances. -/
theorem pointerChangesInThreeWays : Obligations.PointerChangesInThreeWays := by
  intro s t hr h
  refine ⟨step_pointer_cases hr h, fun W hW ⟨_, hregs, hip⟩ => ?_⟩
  have h1000 : 1000 < 2 ^ W := lt_of_lt_of_le (by decide) (Nat.pow_le_pow_right two_pos hW)
  obtain ⟨-, hsame⟩ | ⟨-, hle, v, -, ⟨-, -, hadv⟩ | ⟨g, r, -, ⟨-, hadv⟩ | ⟨-, hjump⟩⟩⟩ :=
    step_pointer_cases hr h
  · exact hsame ▸ hip
  · omega
  · omega
  · exact hjump ▸ hregs g

/-! ### The registers -/

theorem State.setReg_setReg (s : State) (d : Digit) (v w : Nat) :
    (s.setReg d v).setReg d w = s.setReg d w := by
  simp [State.setReg]

theorem State.setReg_comm (s : State) {d r : Digit} (h : r ≠ d) (v w : Nat) :
    (s.setReg r v).setReg d w = (s.setReg d w).setReg r v := by
  simp [State.setReg, Vector.set_comm _ _ (Fin.val_ne_of_ne h)]

/-- With `v` in `r` before it, the instruction `i` either overwrites `r` and answers the same `t`, or leaves
`r` alone in both and answers `t` with `v` in `r`. -/
def IgnoresReg (i : Instr) (r : Digit) (v : Nat) (s t : State) : Prop :=
  exec i (s.setReg r v) = .next t ∨
    (exec i (s.setReg r v) = .next (t.setReg r v) ∧ t.reg r = s.reg r)

section
variable {i : Instr} {r : Digit} {v : Nat} {s : State}

/-- One value written to one register, whatever stands in `r`. -/
theorem IgnoresReg.of_write {d : Digit} {w : Nat}
    (h : exec i (s.setReg r v) = .next ((s.setReg r v).setReg d w).advance) :
    IgnoresReg i r v s (s.setReg d w).advance := by
  by_cases hd : r = d
  · subst hd
    exact .inl (by rw [h, State.setReg_setReg])
  · refine .inr ⟨?_, by simp [hd]⟩
    rw [h, State.setReg_comm s hd]
    rfl

/-- An instruction ignores every register outside its "reads" column (spec/10_state.md R12). -/
theorem exec_ignores_unread {t : State} (hr : r ∉ readsRegs i) (h : exec i s = .next t) :
    IgnoresReg i r v s t := by
  have keep : ∀ q ∈ readsRegs i, (s.setReg r v).reg q = s.reg q := fun q hq => by
    have hq : q ≠ r := fun e => hr (e ▸ hq)
    simp [hq]
  cases i with
  | ldi d n => cases h; exact .of_write rfl
  | addi d n =>
    rw [exec_addi] at h
    cases h
    exact .of_write (by rw [exec_addi, keep d (by simp [readsRegs])])
  | muli d n =>
    rw [exec_muli] at h
    cases h
    exact .of_write (by rw [exec_muli, keep d (by simp [readsRegs])])
  | mov d q => cases h; exact .of_write (by rw [exec_mov, keep q (by simp [readsRegs])])
  | add d q =>
    cases h
    exact .of_write (by rw [exec_add, keep d (by simp [readsRegs]), keep q (by simp [readsRegs])])
  | mul d q =>
    cases h
    exact .of_write (by rw [exec_mul, keep d (by simp [readsRegs]), keep q (by simp [readsRegs])])
  | jnz g q =>
    have hg := keep g (by simp [readsRegs])
    have hq := keep q (by simp [readsRegs])
    by_cases h0 : s.reg q = 0
    · simp only [exec_jnz, h0, if_true] at h
      cases h
      exact .inr ⟨by simp only [exec_jnz, hq, h0, if_true]; rfl, rfl⟩
    · simp only [exec_jnz, h0, if_false] at h
      cases h
      exact .inr ⟨by simp only [exec_jnz, hq, hg, h0, if_false]; rfl, rfl⟩
  | ld d a =>
    have ha := keep a (by simp [readsRegs])
    by_cases hlt : s.reg a < 1000
    · have hv := s.memRead_of_lt hlt
      rw [exec_ld hv] at h
      cases h
      exact .of_write (exec_ld (ha ▸ hv))
    · have hge := Nat.not_lt.mp hlt
      rw [exec_ld_raises d hge] at h
      cases h
      exact .inr ⟨exec_ld_raises d (ha ▸ hge), rfl⟩
  | st q a =>
    have hq := keep q (by simp [readsRegs])
    have ha := keep a (by simp [readsRegs])
    by_cases hlt : s.reg a < 1000
    · rw [exec_st q hlt] at h
      cases h
      exact .inr ⟨by rw [exec_st q (ha ▸ hlt), hq, ha]; rfl, rfl⟩
    · have hge := Nat.not_lt.mp hlt
      rw [exec_st_raises q hge] at h
      cases h
      exact .inr ⟨exec_st_raises q (ha ▸ hge), rfl⟩
  | halt | illegal1xx | illegalGt999 => cases h; exact .inr ⟨rfl, rfl⟩

end

/-- An instruction leaves every register but the one it writes. -/
theorem Effect.writesReg_of_reg_ne {i : Instr} {s t : State} {r : Digit} (he : Effect i s t)
    (hne : t.reg r ≠ s.reg r) : writesReg i = some r := by
  have written {d : Digit} {w : Nat} (h : (s.setReg d w).advance.reg r ≠ s.reg r) : d = r := by
    by_contra hd
    simp [Ne.symm hd] at h
  cases he with
  | result d v h => rw [h, written hne]
  | copy d q h => rw [h, writesReg, written hne]
  | load d a v h => rw [h, writesReg, written hne]
  | store | fall | jump | halt | badOperands | badCell | badAddress => exact absurd rfl hne

/-- Settles O29: `Effect` gives what an instruction writes, `exec_ignores_unread` what it reads. -/
theorem registersReadAndWrittenByTheTable : Obligations.RegistersReadAndWrittenByTheTable := by
  refine ⟨fun s d v => by simp, fun i s t r h => (effect_of_exec h).writesReg_of_reg_ne,
    fun i s t r v hr h => ?_, fun g r s v hg h0 => ?_⟩
  · obtain hu | ⟨hu, hkept⟩ := exec_ignores_unread (v := v) hr h
    · exact ⟨t, hu, rfl, fun _ _ => rfl, fun _ => rfl, ⟨rfl, rfl, rfl, rfl⟩, .inl rfl⟩
    · exact ⟨t.setReg r v, hu, rfl, fun q hq => by simp [hq], fun _ => rfl, ⟨rfl, rfl, rfl, rfl⟩,
        .inr ⟨by simp, hkept⟩⟩
  · have htest : (s.setReg g v).reg r = 0 := by simp [hg.symm, h0]
    rw [exec_jnz, if_pos htest]
    rfl

end Machine
end Sys2Proof
end

section
/-! PROOFS. The decoder by the three digits of a value (spec/30_encoding.md R46, R47) and the two illegal
classes of cell values (R50, R51) with their faults (spec/60_exceptions.md R113, R114). -/

namespace Sys2Proof

/-! ### The decoder by the hundreds digit -/

/-- A value up to 999 decodes by its hundreds digit and its two operand digits. -/
theorem decode_of_d1_eq {v : Nat} {h : Digit} (hv : v ≤ 999) (hh : d1 v = h) :
    decode v = decode (digits h (d2 v) (d3 v)) := by
  rw [← hh, digits_of_le hv]

/-- Family 1 with a nonzero operand digit is the illegal row (R51). -/
theorem decode_digits_1_of_ne {p q : Digit} (h : ¬(p = 0 ∧ q = 0)) :
    decode (digits 1 p q) = .illegal1xx p q := by
  rw [decode_digits_1, if_neg h]

/-- In family 1 the value 100 alone has no nonzero operand digit. -/
theorem operands_ne_zero_of_ne_100 {v : Nat} (hv : v ≤ 999) (hh : d1 v = 1) (hne : v ≠ 100) :
    ¬(d2 v = 0 ∧ d3 v = 0) := by
  rintro ⟨hp, hq⟩
  have h100 : digits (d1 v) (d2 v) (d3 v) = 100 := by rw [hh, hp, hq]; rfl
  exact hne (by rwa [digits_of_le hv] at h100)

/-- Settles O3: the digits are the decoder's own, and each clause is the decoder's row for its hundreds
digit. -/
theorem decoderFollowsOpcodeMap : Obligations.DecoderFollowsOpcodeMap := by
  intro v hv
  have family (k : Nat) : (d1 v).val = k ↔ 100 * k ≤ v ∧ v ≤ 100 * k + 99 := by
    rw [d1_val hv]
    omega
  have row {h : Digit} (hh : d1 v = h) := decode_of_d1_eq hv hh
  exact ⟨d1 v, d2 v, d3 v, d1_val hv, rfl, rfl, (digits_of_le hv).symm, family,
    fun h0 => (row h0).trans (decode_digits_0 _ _),
    fun h100 => h100 ▸ decode_digits_1 0 0,
    fun h1 hne => (row h1).trans (decode_digits_1_of_ne (operands_ne_zero_of_ne_100 hv h1 hne)),
    fun h2 => (row h2).trans (decode_digits_2 _ _),
    fun h3 => (row h3).trans (decode_digits_3 _ _),
    fun h4 => (row h4).trans (decode_digits_4 _ _),
    fun h5 => (row h5).trans (decode_digits_5 _ _),
    fun h6 => (row h6).trans (decode_digits_6 _ _),
    fun h7 => (row h7).trans (decode_digits_7 _ _),
    fun h8 => (row h8).trans (decode_digits_8 _ _),
    fun h9 => (row h9).trans (decode_digits_9 _ _)⟩

namespace Machine

/-! ### The two illegal rows and their faults -/

@[simp] theorem runState_raise (f : Fault) (s : State) : (raise f s).runState = .faulted f := rfl

/-- The instruction `i`, executed at `s`, takes the fault `f` (spec/60_exceptions.md R113, R114, R115); the
other two faults are taken before anything is executed (R111, R112). -/
def RaisedBy (i : Instr) (s : State) : Fault → Prop
  | .executionTimeout | .pointerOutOfRange => False
  | .invalidInstruction => ∃ v : Nat, i = .illegalGt999 v
  | .invalidOperands => ∃ p q : Digit, i = .illegal1xx p q
  | .invalidMemoryReference => ∃ d a : Digit, (i = .ld d a ∨ i = .st d a) ∧ 1000 ≤ s.reg a

/-- An instruction that newly latches a fault takes it. -/
theorem Effect.raisedBy_of_latches {i : Instr} {s t : State} {f : Fault} (he : Effect i s t)
    (hs : s.fcause ≠ some f) (ht : t.fcause = some f) : RaisedBy i s f := by
  cases he with
  | result | copy | load | store | fall | jump | halt => exact absurd ht hs
  | badOperands p q h => cases ht; exact ⟨p, q, h⟩
  | badCell v h => cases ht; exact ⟨v, h⟩
  | badAddress d a h ha => cases ht; exact ⟨d, a, h, ha⟩

/-- The step that fetches a cell 101..199 counts and faults. -/
theorem step_illegal1xx {s : State} {p q : Digit} (h : ¬(p = 0 ∧ q = 0)) (hf : Fetches s (digits 1 p q)) :
    step s = .next (raise .invalidOperands s.countFetch) := by
  rw [step_fetches hf, decode_digits_1_of_ne h, exec_illegal1xx]

/-- The step that fetches a cell above 999 counts and faults. -/
theorem step_illegalGt999 {s : State} {v : Nat} (h : 999 < v) (hf : Fetches s v) :
    step s = .next (raise .invalidInstruction s.countFetch) := by
  rw [step_fetches hf, decode_of_gt h, exec_illegalGt999]

/-- Settles O15: the decoder's row for family 1, the step that fetches it, and, for the converse, the
effects of an instruction. -/
theorem haltFamilyWithOperandsFaults : Obligations.HaltFamilyWithOperandsFaults := by
  refine ⟨decode_digits_1 0 0, fun p q h => ⟨decode_digits_1_of_ne h, fun s => exec_illegal1xx s p q,
    fun s t hf hstep => ?_⟩, fun i s t hx hs ht => (effect_of_exec hx).raisedBy_of_latches hs ht⟩
  cases (step_illegal1xx h hf).symm.trans hstep
  exact ⟨rfl, runState_raise _ _⟩

/-- Settles O16, by the decoder's test for a value above 999 and, for the converse, the effects of an
instruction. -/
theorem cellAbove999Faults : Obligations.CellAbove999Faults :=
  ⟨fun v h => ⟨decode_of_gt h, fun s => exec_illegalGt999 s v, fun _ hf => step_illegalGt999 h hf⟩,
    fun _ _ _ hx hs ht => (effect_of_exec hx).raisedBy_of_latches hs ht⟩

end Machine
end Sys2Proof
end

section
/-! PROOFS. The step control (spec/40_step_run_control.md): the phases of a step (R61), the counter after a
fault (R62) and how many instructions a budget permits (R66). -/

namespace Sys2Proof.Machine

/-! ### The phases of a step and the counter -/

/-- Settles O18, phase by phase: the budget check, the pointer check, the fetch and the execute phase. -/
theorem stepFollowsPhaseOrder : Obligations.StepFollowsPhaseOrder := by
  refine fun s hr => ⟨step_timeout hr, step_pointer hr, fun hb hp => ?_⟩
  have hf : Fetches s (s.mem.read s.ip) := ⟨hr, hb, s.memRead_of_lt hp⟩
  exact ⟨_, s.memRead_of_lt hp, fun hv => step_illegalGt999 hv hf, fun _ => step_fetches hf⟩

/-- A step that fetches counts once, whatever it then executes. -/
theorem Fetches.icount_of_step {s t : State} {v : Nat} (hf : Fetches s v) (h : step s = .next t) :
    t.icount = s.icount + 1 :=
  (effect_of_exec ((step_fetches hf).symm.trans h)).keeps_counts.1

/-- Settles O24: a step that stops at the budget or pointer check has not counted, and one that passes both
has counted and takes neither of their faults. -/
theorem counterIsAsymmetricAcrossFaults : Obligations.CounterIsAsymmetricAcrossFaults := by
  intro s t hr hc h
  cases case_of_step h with
  | stopped hs => simp [hr] at hs
  | timeout | pointer => simp
  | runs v t hf hx he =>
    have not_latched (f : Fault) : s.countFetch.fcause ≠ some f := by simp [hc]
    refine ⟨?_, fun _ => hf.icount_of_step h⟩
    rintro (ht | ht)
    · exact (he.raisedBy_of_latches (not_latched _) ht).elim
    · exact (he.raisedBy_of_latches (not_latched _) ht).elim

/-! ### The number of instructions a budget permits -/

/-- A machine still running after a step request fetched in it. -/
theorem fetches_of_running_stepState {s : State} (h : (stepState s).running = true) :
    ∃ v, Fetches s v := by
  obtain ⟨t, ht, hcase⟩ := step_case s
  rw [stepState_of_next ht] at h
  cases hcase with
  | stopped hs => simp [h] at hs
  | timeout | pointer => simp at h
  | runs v t hf => exact ⟨v, hf⟩

theorem Fetches.icount_stepState {s : State} {v : Nat} (hf : Fetches s v) :
    (stepState s).icount = s.icount + 1 := by
  obtain ⟨t, ht, -⟩ := step_case s
  rw [stepState_of_next ht, hf.icount_of_step ht]

/-- No number of steps changes the budget (R16). -/
theorem stepTimes_budget (k : Nat) (s : State) : (stepTimes k s).budget = s.budget := by
  obtain ⟨-, step_budget, -⟩ := budgetIsReadOnlyByTheBudgetCheck
  exact stepTimes_keeps (P := fun t => t.budget = s.budget)
    (fun t u ht h => (step_budget t u h).trans ht) rfl k

section
variable {s : State} {n : Nat}

/-- Each step but the last of a machine running throughout has fetched. -/
theorem fetches_of_running_upTo (h : ∀ k, k ≤ n + 1 → (stepTimes k s).running = true) :
    ∀ k, k ≤ n → ∃ v, Fetches (stepTimes k s) v := fun k hk => by
  have hnext := h (k + 1) (Nat.succ_le_succ hk)
  rw [stepTimes_succ] at hnext
  exact fetches_of_running_stepState hnext

/-- The counter of a machine that fetches in each of its first `n` steps. -/
theorem stepTimes_icount (h : ∀ k, k < n → ∃ v, Fetches (stepTimes k s) v) :
    (stepTimes n s).icount = s.icount + BitVec.ofNat 64 n := by
  induction n with
  | zero => simp [stepTimes]
  | succ n ih =>
    obtain ⟨v, hf⟩ := h n n.lt_succ_self
    rw [stepTimes_succ, hf.icount_stepState, ih fun k hk => h k (Nat.lt_succ_of_lt hk), BitVec.ofNat_add,
      BitVec.add_assoc]
    rfl

end

/-- Settles O48: a machine still running fetched in every step so far, so after `b + 1` steps the counter
stands one above the budget and phase 1 ends the next step. -/
theorem budgetPermitsOneMoreInstruction : Obligations.BudgetPermitsOneMoreInstruction := by
  intro W img b s hb hbuilt hrun
  have hfetch := fetches_of_running_upTo hrun
  obtain ⟨built_icount, -⟩ := counterCountsFetches
  obtain ⟨built_budget, -⟩ := budgetIsReadOnlyByTheBudgetCheck
  have hicount : (stepTimes (b.toNat + 1) s).icount.toNat = b.toNat + 1 := by
    have hfits : b.toNat + 1 < 2 ^ 64 := by omega
    rw [stepTimes_icount fun k hk => hfetch k (Nat.le_of_lt_succ hk), built_icount W img b s hbuilt,
      zero_add, BitVec.toNat_ofNat, Nat.mod_eq_of_lt hfits]
  have hspent : (stepTimes (b.toNat + 1) s).budget < (stepTimes (b.toNat + 1) s).icount := by
    rw [BitVec.lt_def, hicount, stepTimes_budget, (built_budget W img b b s hbuilt).1]
    exact Nat.lt_succ_self _
  refine ⟨hfetch, hicount, ?_⟩
  rw [stepTimes_succ]
  exact stepState_of_next (step_timeout (hrun _ le_rfl) hspent)

end Sys2Proof.Machine
end

section
/-! PROOFS. `HALT` (spec/41_halt.md R80): the halting step, the illegal operands of its family (R51), and that
a machine that has stopped stays as it is (spec/40_step_run_control.md R60) and ends `execute` (R70). -/

namespace Sys2Proof

/-- The cells 101..199 are those of family 1 with a nonzero operand digit. -/
theorem exists_digits_1 {v : Nat} (hlo : 101 ≤ v) (hhi : v ≤ 199) :
    ∃ p q : Digit, ¬(p = 0 ∧ q = 0) ∧ digits 1 p q = v := by
  have hv : v ≤ 999 := by omega
  have h1 : d1 v = 1 := Fin.ext ((d1_val hv).trans (by show v / 100 = 1; omega))
  exact ⟨d2 v, d3 v, operands_ne_zero_of_ne_100 hv h1 (by omega), h1 ▸ digits_of_le hv⟩

namespace Machine

/-! ### A machine that has stopped -/

/-- No number of steps changes a stopped machine. -/
theorem stepTimes_stopped {s : State} (h : s.running = false) (k : Nat) : stepTimes k s = s := by
  refine stepTimes_keeps (P := fun t => t = s) (fun t u ht hstep => ?_) rfl k
  subst ht
  exact (stepState_of_next hstep).symm.trans (stepState_of_next (step_stopped h))

/-- `execute` on a stopped machine reports the latched outcome, with any bound on its steps. -/
theorem execute_stopped {s : State} (h : s.running = false) (n : Nat) :
    execute n s = some (s, s.result) := by
  cases n with
  | zero => simp [execute, h]
  | succ n => simp [execute, h]

/-! ### A step as the host sees it -/

section
variable {s t : State}

theorem hostStep_of_next (h : step s = .next t) : hostStep s = (t, t.result) := by
  rw [hostStep, stepState_of_next h]

/-- One step of `execute` on a running machine. -/
theorem execute_succ_of_next (hr : s.running = true) (h : step s = .next t) (n : Nat) :
    execute (n + 1) s = execute n t := by
  rw [execute, if_pos hr, stepState_of_next h]

/-- A machine that ends a step with no fault latched reports `ok`. -/
theorem State.result_of_fcause_none (h : s.fcause = none) : s.result = .ok := by
  rw [State.result, h]

end

/-! ### The halt -/

/-- The step that fetches the cell 100 counts and stops the machine. -/
theorem step_halt {s : State} (hf : Fetches s 100) : step s = .next s.countFetch.stop := by
  have hdec : decode 100 = .halt := decode_digits_1 0 0
  rw [step_fetches hf, hdec, exec_halt]

/-- Settles O14, by the one state the halting step answers: it is stopped, so `execute` ends in it and no
later step changes it, and its latch is that of the state before. -/
theorem haltStopsCleanly : Obligations.HaltStopsCleanly := by
  refine ⟨decode_digits_1 0 0, exec_halt, fun s t hf h => ?_, fun s v hlo hhi hf => ?_,
    fun s hr hb _ => step_timeout hr hb⟩
  · cases (step_halt hf).symm.trans h
    have hstopped : s.countFetch.stop.running = false := rfl
    obtain ⟨hr, -, hcell⟩ := hf
    refine ⟨rfl, hcell, fun hc => ?_, stepTimes_stopped hstopped⟩
    have hok : s.countFetch.stop.result = .ok := State.result_of_fcause_none hc
    exact ⟨hok ▸ hostStep_of_next h,
      hok ▸ (execute_succ_of_next hr h 0).trans (execute_stopped hstopped 0)⟩
  · obtain ⟨p, q, hne, rfl⟩ := exists_digits_1 hlo hhi
    exact step_illegal1xx hne hf

end Machine
end Sys2Proof
end

section
/-! PROOFS. Families 2, 3, 4 (spec/42_immediate.md R85 to R87) and the laws of the ALU (R88). The frame of an
instruction that writes one register and advances is proved once, for every family that does so. -/

namespace Sys2Proof.Machine

/-! ### One register written and the pointer advanced -/

section
variable {i : Instr} {d : Digit} {v : Nat} {s t : State}

/-- What writing a register and advancing does, and all that it leaves unchanged. -/
theorem State.setReg_advance_frame (s : State) (d : Digit) (v : Nat) :
    (s.setReg d v).advance.reg d = v ∧ (s.setReg d v).advance.ip = s.ip + 1 ∧
      SameRegsBut d s (s.setReg d v).advance ∧ SameMem s (s.setReg d v).advance ∧
      SameControl s (s.setReg d v).advance :=
  ⟨by simp, rfl, fun r hr => by simp [hr], fun _ => rfl, rfl, rfl, rfl, rfl⟩

/-- An instruction that writes `v` to `x[d]` and advances completes, with that result and that frame. -/
theorem exec_completes_of_setReg_advance (h : exec i s = .next (s.setReg d v).advance) :
    ∃ t, exec i s = .next t ∧ t.reg d = v ∧ t.ip = s.ip + 1 ∧
      SameRegsBut d s t ∧ SameMem s t ∧ SameControl s t :=
  ⟨_, h, s.setReg_advance_frame d v⟩

/-- Whatever state such an instruction answers holds `v` in `x[d]`. -/
theorem reg_of_exec_setReg_advance (h : exec i s = .next (s.setReg d v).advance)
    (ht : exec i s = .next t) : t.reg d = v := by
  cases h.symm.trans ht
  exact (s.setReg_advance_frame d v).1

end

/-! ### The immediate instructions -/

/-- Settles O5: family 2 of the decoder, and the frame of writing the digit and advancing. -/
theorem ldiSetsRegisterToDigit : Obligations.LdiSetsRegisterToDigit :=
  fun d n => ⟨decode_digits_2 d n, fun s => exec_completes_of_setReg_advance (exec_ldi s d n)⟩

/-- Settles O6: family 3 of the decoder, and the frame of writing the ALU's sum and advancing. -/
theorem addiAddsDigitModulo1000 : Obligations.AddiAddsDigitModulo1000 :=
  fun d n => ⟨decode_digits_3 d n, fun s => exec_completes_of_setReg_advance (exec_addi s d n)⟩

/-- Settles O7: family 4 of the decoder, and the frame of writing the ALU's product and advancing. -/
theorem muliMultipliesByDigitModulo1000 : Obligations.MuliMultipliesByDigitModulo1000 :=
  fun d n => ⟨decode_digits_4 d n, fun s => exec_completes_of_setReg_advance (exec_muli s d n)⟩

/-! ### The laws of the ALU -/

section
variable (a b c : Nat)

/-- R88: in a sum a raw operand behaves as its remainder modulo 1000 would. -/
theorem aluAdd_mod_mod : aluAdd (a % 1000) (b % 1000) = aluAdd a b := (Nat.add_mod a b 1000).symm

/-- R88: in a product too. -/
theorem aluMul_mod_mod : aluMul (a % 1000) (b % 1000) = aluMul a b := (Nat.mul_mod a b 1000).symm

theorem aluAdd_comm : aluAdd a b = aluAdd b a := by
  rw [aluAdd, aluAdd, Nat.add_comm]

theorem aluMul_comm : aluMul a b = aluMul b a := by
  rw [aluMul, aluMul, Nat.mul_comm]

theorem aluAdd_assoc : aluAdd (aluAdd a b) c = aluAdd a (aluAdd b c) := by
  simp only [aluAdd, Nat.mod_add_mod, Nat.add_mod_mod, Nat.add_assoc]

theorem aluMul_assoc : aluMul (aluMul a b) c = aluMul a (aluMul b c) := by
  simp only [aluMul, Nat.mod_mul_mod, Nat.mul_mod_mod, Nat.mul_assoc]

theorem aluMul_aluAdd : aluMul a (aluAdd b c) = aluAdd (aluMul a b) (aluMul a c) := by
  simp only [aluAdd, aluMul, Nat.mul_mod_mod, Nat.mod_add_mod, Nat.add_mod_mod, Nat.mul_add]

theorem aluAdd_zero : aluAdd a 0 = a % 1000 := rfl

theorem aluMul_zero : aluMul a 0 = 0 := rfl

theorem aluMul_one : aluMul a 1 = a % 1000 := by
  rw [aluMul, Nat.mul_one]

end

/-- Settles O17: the range, reduction and algebra of the two operations law by law, and for each of the four
instructions the value it writes. -/
theorem aluLawsHold : Obligations.AluLawsHold := by
  refine ⟨fun a b => ?_, fun a b c => ?_, fun d e s t => ⟨?_, ?_, ?_, ?_⟩⟩
  · exact ⟨rfl, rfl, Nat.le_of_lt_succ (aluAdd_lt a b), Nat.le_of_lt_succ (aluMul_lt a b),
      (aluAdd_mod_mod a b).symm, (aluMul_mod_mod a b).symm, aluAdd_comm a b, aluMul_comm a b,
      aluAdd_zero a, aluMul_zero a, aluMul_one a⟩
  · exact ⟨aluAdd_assoc a b c, aluMul_assoc a b c, aluMul_aluAdd a b c⟩
  · exact reg_of_exec_setReg_advance (exec_addi s d e)
  · exact reg_of_exec_setReg_advance (exec_add s d e)
  · exact reg_of_exec_setReg_advance (exec_muli s d e)
  · exact reg_of_exec_setReg_advance (exec_mul s d e)

end Sys2Proof.Machine
end

section
/-! PROOFS. Families 5, 6, 7 (spec/43_register.md R90 to R92): like the immediate families, each writes one
register and advances. The value written is computed from the state before the write (R64), so the
instructions with `d = r` need no case of their own. -/

namespace Sys2Proof.Machine

/-- Settles O8: family 5 of the decoder, and the frame of writing the source's value as it is and
advancing. -/
theorem movCopiesWithoutReduction : Obligations.MovCopiesWithoutReduction :=
  fun d r => ⟨decode_digits_5 d r, fun s => exec_completes_of_setReg_advance (exec_mov s d r)⟩

/-- Settles O9: family 6 of the decoder, and the frame of writing the ALU's sum of the two registers and
advancing. -/
theorem addAddsRegistersModulo1000 : Obligations.AddAddsRegistersModulo1000 :=
  fun d r => ⟨decode_digits_6 d r, fun s => exec_completes_of_setReg_advance (exec_add s d r)⟩

/-- Settles O10: family 7 of the decoder, and the frame of writing the ALU's product of the two registers and
advancing. -/
theorem mulMultipliesRegistersModulo1000 : Obligations.MulMultipliesRegistersModulo1000 :=
  fun d r => ⟨decode_digits_7 d r, fun s => exec_completes_of_setReg_advance (exec_mul s d r)⟩

end Sys2Proof.Machine
end

section
/-! PROOFS. Families 8, 9 (spec/44_memory_ops.md R95, R96). A load completes like the instructions of one
register; what a store leaves unchanged is said once here. Both fault, in a whole step too, when the address
is above 999 (spec/60_exceptions.md R115). -/

namespace Sys2Proof.Machine

/-- What writing a cell below 1000 and advancing does, and all that it leaves unchanged. -/
theorem State.setCell_advance_frame (s : State) {a : Nat} (h : a < 1000) (v : Nat) :
    (s.setCell a v).advance.memRead a = some v ∧
      (∀ b : Nat, b ≠ a → (s.setCell a v).advance.memRead b = s.memRead b) ∧
      (s.setCell a v).advance.ip = s.ip + 1 ∧ SameRegs s (s.setCell a v).advance ∧
      SameControl s (s.setCell a v).advance :=
  ⟨by simp [State.memRead_setCell s h], fun b hb => by simp [State.memRead_setCell s h, hb], rfl,
    fun _ => rfl, rfl, rfl, rfl, rfl⟩

section
variable {s : State} {a : Digit}

/-- The step that fetches a load at an address above 999 counts and faults. -/
theorem step_ld_raises {d : Digit} (hf : Fetches s (digits 8 d a)) (h : 1000 ≤ s.reg a) :
    step s = .next (raise .invalidMemoryReference s.countFetch) := by
  rw [step_fetches hf, decode_digits_8]
  exact exec_ld_raises d h

/-- The step that fetches a store at an address above 999 counts and faults. -/
theorem step_st_raises {r : Digit} (hf : Fetches s (digits 9 r a)) (h : 1000 ≤ s.reg a) :
    step s = .next (raise .invalidMemoryReference s.countFetch) := by
  rw [step_fetches hf, decode_digits_9]
  exact exec_st_raises r h

end

/-- Settles O11: family 8 of the decoder, the frame of writing the cell read and advancing, and above 999 the
fault in the execute phase and in the step. -/
theorem ldCopiesCellOrFaults : Obligations.LdCopiesCellOrFaults := by
  refine fun d a => ⟨decode_digits_8 d a, fun s ha => ?_, fun _ ha => exec_ld_raises d ha,
    fun _ hf ha => step_ld_raises hf ha⟩
  have hcell : s.memRead (s.reg a) = some (s.mem.read (s.reg a)) :=
    s.memRead_of_lt (Nat.lt_succ_of_le ha)
  exact ⟨_, _, hcell, exec_ld hcell, s.setReg_advance_frame d _⟩

/-- Settles O12: family 9 of the decoder, the frame of writing the source's value as it is to the addressed
cell and advancing, and above 999 the fault in the execute phase and in the step. -/
theorem stWritesCellOrFaults : Obligations.StWritesCellOrFaults := by
  refine fun r a => ⟨decode_digits_9 r a, fun _ => rfl, fun s addr haddr hle => ?_,
    fun _ ha => exec_st_raises r ha, fun _ hf ha => step_st_raises hf ha⟩
  subst haddr
  have hlt : s.reg a < 1000 := Nat.lt_succ_of_le hle
  exact ⟨_, exec_st r hlt, s.setCell_advance_frame hlt _⟩

end Sys2Proof.Machine
end

section
/-! PROOFS. Family 0 (spec/45_jump.md R100, R102): both outcomes of `JNZ` set the pointer and nothing else. The
target is not checked by the jump; what the next step does with a target of 1000 or more is said of every
running machine whose pointer is there (spec/60_exceptions.md R111, R112). -/

namespace Sys2Proof

/-- A value of family 0 is written with its two operand digits alone. -/
theorem digits_0 (q r : Digit) : digits 0 q r = 10 * q.val + r.val := by
  simp [digits]

namespace Machine

/-- Setting the pointer leaves everything else unchanged. -/
theorem State.setIp_frame (s : State) (a : Nat) :
    SameRegs s (s.setIp a) ∧ SameMem s (s.setIp a) ∧ SameControl s (s.setIp a) :=
  ⟨fun _ => rfl, fun _ => rfl, rfl, rfl, rfl, rfl⟩

section
variable {s : State} {g r : Digit}

theorem exec_jnz_falls (g : Digit) (h : s.reg r = 0) : exec (.jnz g r) s = .next s.advance := by
  rw [exec_jnz, if_pos h]

theorem exec_jnz_jumps (h : s.reg r ≠ 0) : exec (.jnz g r) s = .next (s.setIp (s.reg g)) := by
  rw [exec_jnz, if_neg h]

/-- The step that fetches a jump taken counts and sets the pointer to the target, whatever the target is. -/
theorem step_jnz_jumps (hf : Fetches s (digits 0 g r)) (h : s.reg r ≠ 0) :
    step s = .next (s.countFetch.setIp (s.reg g)) := by
  rw [step_fetches hf, decode_digits_0]
  exact exec_jnz_jumps h

/-- A running machine whose pointer is out of range faults before it counts, and the budget is checked
first. -/
theorem step_of_ip_out_of_range (hr : s.running = true) (hip : 1000 ≤ s.ip) :
    step s = .next
      (raise (if s.budget < s.icount then .executionTimeout else .pointerOutOfRange) s) := by
  by_cases hb : s.budget < s.icount
  · rw [step_timeout hr hb, if_pos hb]
  · rw [step_pointer hr (BitVec.not_lt.mp hb) hip, if_neg hb]

end

/-- Settles O13: family 0 of the decoder, the frame of setting the pointer for both outcomes, and for a target
of 1000 or more the jump's step and the step after it, which starts with the pointer out of range. -/
theorem jnzJumpsUncheckedOrFallsThrough : Obligations.JnzJumpsUncheckedOrFallsThrough := by
  intro g r
  rw [← digits_0 g r]
  refine ⟨decode_digits_0 g r, fun s => ?_, fun s hf hne htarget => ?_⟩
  · by_cases h0 : s.reg r = 0
    · exact ⟨_, exec_jnz_falls g h0, fun _ => rfl, fun hne => absurd h0 hne, s.setIp_frame _⟩
    · exact ⟨_, exec_jnz_jumps h0, fun hz => absurd hz h0, fun _ => rfl, s.setIp_frame _⟩
  · have hjump := step_jnz_jumps hf hne
    obtain ⟨hr, -, -⟩ := hf
    exact ⟨hjump, step_of_ip_out_of_range (s := s.countFetch.setIp (s.reg g)) hr htarget⟩

end Machine
end Sys2Proof
end

section
/-! PROOFS. The faults of spec/60_exceptions.md: the fault a step takes as one relation, in the priority of R117,
and from it the budget fault (R111), the pointer fault (R112) and the memory fault (R115). -/

namespace Sys2Proof

/-! ### The decoder's answers to the faulting cells -/

/-- What the decoder answers is the reading of a cell value. -/
@[simp] theorem wf_decode (v : Nat) : (decode v).wf = true := by
  by_cases hv : 999 < v
  · simp [decode_of_gt hv, Instr.wf, hv]
  · rw [← digits_of_le (Nat.not_lt.mp hv)]
    generalize d1 v = p, d2 v = q, d3 v = r
    match p with
    | 1 =>
      by_cases h : q = 0 ∧ r = 0
      · simp [h, Instr.wf]
      · rw [decode_digits_1, if_neg h]
        simpa [Instr.wf, imp_iff_not_or] using h
    | 0 | 2 | 3 | 4 | 5 | 6 | 7 | 8 | 9 => simp [Instr.wf]

theorem eq_encode_of_decode {v : Nat} {i : Instr} (h : decode v = i) : v = encode i :=
  h ▸ (encode_decode v).symm

theorem decode_eq_illegalGt999_iff {v : Nat} : (∃ w, decode v = .illegalGt999 w) ↔ 999 < v := by
  refine ⟨fun ⟨w, h⟩ => ?_, fun h => ⟨v, decode_of_gt h⟩⟩
  rw [eq_encode_of_decode h]
  exact Laws.TableRange.illegalGt999 w (h ▸ wf_decode v)

theorem decode_eq_illegal1xx_iff {v : Nat} :
    (∃ p q, decode v = .illegal1xx p q) ↔ 101 ≤ v ∧ v ≤ 199 := by
  refine ⟨fun ⟨p, q, h⟩ => ?_, fun ⟨hlo, hhi⟩ => ?_⟩
  · rw [eq_encode_of_decode h]
    exact Laws.TableRange.illegal1xx p q (h ▸ wf_decode v)
  · obtain ⟨p, q, hne, rfl⟩ := exists_digits_1 hlo hhi
    exact ⟨p, q, decode_digits_1_of_ne hne⟩

theorem decode_eq_load_or_store_iff {v : Nat} {p q : Digit} :
    decode v = .ld p q ∨ decode v = .st p q ↔ ∃ h : Digit, (h = 8 ∨ h = 9) ∧ v = digits h p q := by
  constructor
  · rintro (h | h)
    · exact ⟨8, .inl rfl, eq_encode_of_decode h⟩
    · exact ⟨9, .inr rfl, eq_encode_of_decode h⟩
  · rintro ⟨h, rfl | rfl, rfl⟩
    · exact .inl (decode_digits_8 p q)
    · exact .inr (decode_digits_9 p q)

namespace Machine

/-! ### The fault a step takes -/

/-- A step request at `s` takes the fault `f`: each check with the ones before it passed (R117), and the
execute phase entered with the counter incremented. -/
inductive StepRaises (s : State) : Fault → Prop where
  | timeout (hr : s.running = true) (hb : s.budget < s.icount) : StepRaises s .executionTimeout
  | pointer (hr : s.running = true) (hb : s.icount ≤ s.budget) (hp : 1000 ≤ s.ip) :
      StepRaises s .pointerOutOfRange
  | execute {f : Fault} (v : Nat) (hf : Fetches s v) (hx : RaisedBy (decode v) s.countFetch f) :
      StepRaises s f

section
variable {s t : State} {f : Fault}

/-- An instruction that takes a fault does nothing else. -/
theorem exec_of_raisedBy {i : Instr} (h : RaisedBy i s f) : exec i s = .next (raise f s) := by
  cases f with
  | executionTimeout | pointerOutOfRange => exact h.elim
  | invalidInstruction =>
    obtain ⟨v, rfl⟩ := h
    exact exec_illegalGt999 s v
  | invalidOperands =>
    obtain ⟨p, q, rfl⟩ := h
    exact exec_illegal1xx s p q
  | invalidMemoryReference =>
    obtain ⟨d, a, rfl | rfl, ha⟩ := h
    · exact exec_ld_raises d ha
    · exact exec_st_raises d ha

/-- A step that takes a fault latches it. -/
theorem StepRaises.latches (hf : StepRaises s f) (h : step s = .next t) : t.fcause = some f := by
  cases hf with
  | timeout hr hb =>
    cases (step_timeout hr hb).symm.trans h
    rfl
  | pointer hr hb hp =>
    cases (step_pointer hr hb hp).symm.trans h
    rfl
  | execute v hv hx =>
    cases ((step_fetches hv).trans (exec_of_raisedBy hx)).symm.trans h
    rfl

/-- A step newly latches exactly the fault it takes. -/
theorem step_latches_iff (hs : s.fcause ≠ some f) (h : step s = .next t) :
    t.fcause = some f ↔ StepRaises s f := by
  refine ⟨fun ht => ?_, fun hf => hf.latches h⟩
  cases case_of_step h with
  | stopped => exact absurd ht hs
  | timeout hr hb => cases ht; exact .timeout hr hb
  | pointer hr hb hp => cases ht; exact .pointer hr hb hp
  | runs v t hf hx he => exact .execute v hf (he.raisedBy_of_latches hs ht)

theorem stepRaises_executionTimeout_iff :
    StepRaises s .executionTimeout ↔ s.running = true ∧ s.budget < s.icount := by
  refine ⟨fun h => ?_, fun ⟨hr, hb⟩ => .timeout hr hb⟩
  cases h with
  | timeout hr hb => exact ⟨hr, hb⟩
  | execute v hf hx => exact hx.elim

theorem stepRaises_pointerOutOfRange_iff :
    StepRaises s .pointerOutOfRange ↔ s.running = true ∧ s.icount ≤ s.budget ∧ 1000 ≤ s.ip := by
  refine ⟨fun h => ?_, fun ⟨hr, hb, hp⟩ => .pointer hr hb hp⟩
  cases h with
  | pointer hr hb hp => exact ⟨hr, hb, hp⟩
  | execute v hf hx => exact hx.elim

theorem stepRaises_invalidInstruction_iff :
    StepRaises s .invalidInstruction ↔ ∃ v, Fetches s v ∧ 999 < v := by
  refine ⟨fun h => ?_, fun ⟨v, hf, hv⟩ => .execute v hf (decode_eq_illegalGt999_iff.mpr hv)⟩
  cases h with
  | execute v hf hx => exact ⟨v, hf, decode_eq_illegalGt999_iff.mp hx⟩

theorem stepRaises_invalidOperands_iff :
    StepRaises s .invalidOperands ↔ ∃ v, Fetches s v ∧ 101 ≤ v ∧ v ≤ 199 := by
  refine ⟨fun h => ?_, fun ⟨v, hf, hv⟩ => .execute v hf (decode_eq_illegal1xx_iff.mpr hv)⟩
  cases h with
  | execute v hf hx => exact ⟨v, hf, decode_eq_illegal1xx_iff.mp hx⟩

theorem stepRaises_invalidMemoryReference_iff :
    StepRaises s .invalidMemoryReference ↔
      ∃ h p q : Digit, (h = 8 ∨ h = 9) ∧ Fetches s (digits h p q) ∧ 999 < s.reg q := by
  constructor
  · intro h
    cases h with
    | execute v hf hx =>
      obtain ⟨p, q, hi, hq⟩ := hx
      obtain ⟨h, hh, rfl⟩ := decode_eq_load_or_store_iff.mp hi
      exact ⟨h, p, q, hh, hf, hq⟩
  · rintro ⟨h, p, q, hh, hf, hq⟩
    exact .execute _ hf ⟨p, q, decode_eq_load_or_store_iff.mpr ⟨h, hh, rfl⟩, hq⟩

end

/-- Settles O25: with no fault latched before it, a step latches exactly the fault it takes, and each fault's
condition is read off the relation. -/
theorem firstFailingCheckWins : Obligations.FirstFailingCheckWins := by
  intro s t hr hc h
  have latches (f : Fault) : t.fcause = some f ↔ StepRaises s f := step_latches_iff (by simp [hc]) h
  refine ⟨(latches _).trans ?_, (latches _).trans ?_, (latches _).trans stepRaises_invalidInstruction_iff,
    (latches _).trans stepRaises_invalidOperands_iff,
    (latches _).trans stepRaises_invalidMemoryReference_iff⟩
  · exact stepRaises_executionTimeout_iff.trans (and_iff_right hr)
  · exact stepRaises_pointerOutOfRange_iff.trans (and_iff_right hr)

/-! ### The budget fault -/

/-- Under the counter bound the counter exceeds the budget by one only. -/
theorem CounterBounded.timeout_iff {s : State} (hc : CounterBounded s)
    (hb : s.budget.toNat < 2 ^ 64 - 1) : s.budget < s.icount ↔ s.icount.toNat = s.budget.toNat + 1 := by
  have hle := hc hb
  rw [BitVec.lt_def]
  omega

/-- Settles O21, clause by clause: the step of phase 1, the fault a step takes, the faults an instruction takes,
and the counter bound. -/
theorem timeoutIsABudgetCheck : Obligations.TimeoutIsABudgetCheck :=
  ⟨fun _ => step_timeout,
    fun _ _ h hs ht => stepRaises_executionTimeout_iff.mp ((step_latches_iff hs h).mp ht),
    fun _ _ _ hx hs ht => (effect_of_exec hx).raisedBy_of_latches hs ht,
    fun _ hb hc => hc.timeout_iff hb⟩

/-! ### The pointer fault -/

/-- The record of a fault taken with the pointer out of range holds no instruction (R26). -/
theorem faultRecord_instr_raise {s : State} (h : 1000 ≤ s.ip) (f : Fault) :
    (raise f s).faultRecord.map (fun r => r.instr) = some none := by
  simp [State.faultRecord, s.memRead_of_ge h]

/-- Settles O22: the step of phase 2 with its record, and the ways in which a step leaves the pointer, of which
only the advance from 999 and the jump taken lead out of range. -/
theorem pointerFaultAndItsTwoCauses : Obligations.PointerFaultAndItsTwoCauses := by
  refine ⟨fun s t hr hb hp h => ?_, fun s t h hs ht => ?_⟩
  · cases (step_pointer hr hb hp).symm.trans h
    exact ⟨rfl, faultRecord_instr_raise hp _⟩
  · cases hr : s.running with
    | false =>
      cases (step_stopped hr).symm.trans h
      omega
    | true =>
      obtain ⟨-, hsame⟩ | ⟨-, -, v, hf, ⟨-, -, hadv⟩ | ⟨g, r, rfl, ⟨-, hadv⟩ | ⟨hne, hjump⟩⟩⟩ :=
        step_pointer_cases hr h
      · omega
      · exact .inl (by omega)
      · exact .inl (by omega)
      · exact .inr ⟨g, r, hf, hne, hjump⟩

/-! ### The memory fault -/

/-- The step that fetches a load or a store at an address above 999 counts and faults. -/
theorem step_load_or_store_raises {s : State} {h p q : Digit} (hh : h = 8 ∨ h = 9)
    (hf : Fetches s (digits h p q)) (hq : 1000 ≤ s.reg q) :
    step s = .next (raise .invalidMemoryReference s.countFetch) := by
  obtain rfl | rfl := hh
  · exact step_ld_raises hf hq
  · exact step_st_raises hf hq

/-- Settles O23: the step of a load or store above 999, after which the cell at the pointer still names the
address register by its units digit; and, for the converse, the faults an instruction takes. -/
theorem memoryFaultOnlyFromLoadOrStore : Obligations.MemoryFaultOnlyFromLoadOrStore := by
  refine ⟨fun s t h p q hh hf hq hstep => ?_, fun i s t hx hs ht =>
    (effect_of_exec hx).raisedBy_of_latches hs ht⟩
  cases (step_load_or_store_raises hh hf hq).symm.trans hstep
  obtain ⟨-, -, hcell⟩ := hf
  refine ⟨rfl, digits h p q, hcell, fun e he => ?_⟩
  have heq : e = q := (Fin.ext he).trans (d3_digits h p q)
  exact heq ▸ hq

end Machine
end Sys2Proof
end

section
/-! PROOFS. The encoding as a whole (spec/30_encoding.md sections 2 to 7): decoder and encoder are inverse to each
other on the well-formed instructions and the cell values. -/

namespace Sys2Proof

/-- The decoder reads a well-formed instruction back from its cell value: the row of its family, and for the two
illegal classes the row their check leaves. -/
theorem decode_encode {i : Instr} (h : i.wf = true) : decode (encode i) = i := by
  cases i with
  | jnz t r => exact decode_digits_0 t r
  | halt => exact decode_digits_1 0 0
  | ldi d n => exact decode_digits_2 d n
  | addi d n => exact decode_digits_3 d n
  | muli d n => exact decode_digits_4 d n
  | mov d r => exact decode_digits_5 d r
  | add d r => exact decode_digits_6 d r
  | mul d r => exact decode_digits_7 d r
  | ld d a => exact decode_digits_8 d a
  | st r a => exact decode_digits_9 r a
  | illegal1xx p q => exact decode_digits_1_of_ne (by simpa [Instr.wf, imp_iff_not_or] using h)
  | illegalGt999 v => exact decode_of_gt (Laws.TableRange.illegalGt999 v h)

/-- Settles O1, row by row of the opcode table. -/
theorem decodeOfEncodeIsIdentity : Obligations.DecodeOfEncodeIsIdentity :=
  fun _ h => decode_encode h

/-- Settles O2: the decoder's answer is well formed and encodes to the value, and any other such instruction is
what the decoder reads back from it. -/
theorem everyCellValueHasOneReading : Obligations.EveryCellValueHasOneReading := by
  refine fun v => ⟨wf_decode v, encode_decode v, fun i hi hv => ?_⟩
  rw [← hv, decode_encode hi]

/-- Settles O4: each sample is the cell value of the instruction listed beside it. -/
theorem sampleCellsDecode : Obligations.SampleCellsDecode :=
  ⟨decode_digits_0 5 3, decode_digits_0 0 0, decode_digits_1 0 0, decode_digits_2 1 9, decode_digits_3 5 6,
    decode_digits_4 1 5, decode_digits_5 1 2, decode_digits_6 4 3, decode_digits_7 1 2, decode_digits_8 2 1,
    decode_digits_9 4 1, decode_digits_1 2 3, decode_of_gt (by decide)⟩

end Sys2Proof
end

section
/-! PROOFS. What every step keeps: the legal state (spec/10_state.md section 4), the bound on the stored values
(spec/00_scope.md R4, spec/10_state.md R22) and the bound on the counter (R24), by which every run ends. -/

namespace Sys2Proof.Machine

/-! ### The legal state -/

/-- No instruction leaves the legal states: a store keeps memory canonical, and an instruction that latches a
fault stops the machine. -/
theorem Effect.keeps_legal {i : Instr} {s t : State} (he : Effect i s t) (hs : Legal s) : Legal t := by
  obtain ⟨hwf, hlatch⟩ := hs
  cases he with
  | result | copy | load | fall | jump => exact ⟨hwf, hlatch⟩
  | store r a _ ha => exact ⟨Memory.wf_write hwf ha _, hlatch⟩
  | halt | badOperands | badCell | badAddress => exact ⟨hwf, by simp⟩

/-- Settles O42, by the cases of a step: the faults before the fetch stop the machine, and no instruction leaves
the legal states. -/
theorem stepKeepsStateLegal : Obligations.StepKeepsStateLegal := by
  intro s t hs h
  cases case_of_step h with
  | stopped => exact hs
  | timeout | pointer => exact ⟨hs.1, by simp⟩
  | runs v t hf hx he => exact he.keeps_legal (s := s.countFetch) hs

/-! ### The bound on cells and registers -/

/-- No cell and no register is above `M`: `Bounded` without its clause on the pointer, and, for `M = 999`,
`Canonical`. -/
def ValuesAtMost (M : Nat) (s : State) : Prop :=
  (∀ a v, s.memRead a = some v → v ≤ M) ∧ ∀ r : Digit, s.reg r ≤ M

theorem bounded_iff {M : Nat} {s : State} : Bounded M s ↔ ValuesAtMost M s ∧ s.ip ≤ max M 1000 :=
  and_assoc.symm

theorem canonical_iff {s : State} : Canonical s ↔ ValuesAtMost 999 s := Iff.rfl

section
variable {M : Nat} {s t : State}

theorem ValuesAtMost.setReg {v : Nat} (hs : ValuesAtMost M s) (d : Digit) (hv : v ≤ M) :
    ValuesAtMost M (s.setReg d v) := by
  obtain ⟨hcells, hregs⟩ := hs
  refine ⟨hcells, fun r => ?_⟩
  by_cases hr : r = d
  · simpa [hr] using hv
  · simpa [hr] using hregs r

theorem ValuesAtMost.setCell {a v : Nat} (hs : ValuesAtMost M s) (ha : a < 1000) (hv : v ≤ M) :
    ValuesAtMost M (s.setCell a v) := by
  obtain ⟨hcells, hregs⟩ := hs
  refine ⟨fun b w hw => ?_, hregs⟩
  rw [State.memRead_setCell s ha] at hw
  by_cases hb : b = a
  · rw [if_pos hb] at hw
    cases hw
    exact hv
  · rw [if_neg hb] at hw
    exact hcells b w hw

/-- What an instruction writes is a copy of a stored value or at most 999. -/
theorem Effect.keeps_valuesAtMost {i : Instr} (he : Effect i s t) (hM : 999 ≤ M)
    (hs : ValuesAtMost M s) : ValuesAtMost M t := by
  have ⟨hcells, hregs⟩ := hs
  cases he with
  | result d v _ _ _ hv => exact hs.setReg d (hv.trans hM)
  | copy d r => exact hs.setReg d (hregs r)
  | load d a v _ hv => exact hs.setReg d (hcells _ _ hv)
  | store r a _ ha => exact hs.setCell ha (hregs r)
  | fall | jump | halt | badOperands | badCell | badAddress => exact hs

theorem step_keeps_valuesAtMost (hM : 999 ≤ M) (hs : ValuesAtMost M s) (h : step s = .next t) :
    ValuesAtMost M t := by
  cases case_of_step h with
  | stopped | timeout | pointer => exact hs
  | runs v t hf hx he => exact he.keeps_valuesAtMost (s := s.countFetch) hM hs

/-- Where a step leaves the pointer: where it was, at most at 1000, or at a register's value. -/
theorem step_ip (h : step s = .next t) : t.ip = s.ip ∨ t.ip ≤ 1000 ∨ ∃ g, t.ip = s.reg g := by
  cases hr : s.running with
  | false =>
    cases (step_stopped hr).symm.trans h
    exact .inl rfl
  | true =>
    obtain ⟨-, hsame⟩ | ⟨-, hle, v, -, ⟨-, -, hadv⟩ | ⟨g, r, -, ⟨-, hadv⟩ | ⟨-, hjump⟩⟩⟩ :=
      step_pointer_cases hr h
    · exact .inl hsame
    · exact .inr (.inl (by omega))
    · exact .inr (.inl (by omega))
    · exact .inr (.inr ⟨g, hjump⟩)

end

/-- Settles O43: the cells and registers by what an instruction writes, the pointer by where a step leaves it. -/
theorem stepKeepsValuesBounded : Obligations.StepKeepsValuesBounded := by
  intro M s t hM hs h
  obtain ⟨hvalues, hip⟩ := bounded_iff.mp hs
  refine bounded_iff.mpr ⟨step_keeps_valuesAtMost hM hvalues h, ?_⟩
  obtain hsame | hle | ⟨g, hjump⟩ := step_ip h
  · exact hsame ▸ hip
  · exact hle.trans (le_max_right ..)
  · exact hjump ▸ (hvalues.2 g).trans (le_max_left ..)

/-- Settles O50: the bound 999 is kept as every other, and a step that newly took the memory fault would have read
an address register above it. -/
theorem stepKeepsCanonicalWithoutMemoryFault : Obligations.StepKeepsCanonicalWithoutMemoryFault := by
  intro s t hs hlatch h
  refine ⟨canonical_iff.mpr (step_keeps_valuesAtMost le_rfl (canonical_iff.mp hs) h), fun ht => ?_⟩
  obtain ⟨-, -, q, -, -, hq⟩ :=
    stepRaises_invalidMemoryReference_iff.mp ((step_latches_iff hlatch h).mp ht)
  exact absurd (hs.2 q) (Nat.not_le.mpr hq)

/-! ### The bound on the counter -/

section
variable {s t : State}

theorem Fetches.icount_le {v : Nat} (hf : Fetches s v) : s.icount ≤ s.budget := by
  obtain ⟨-, hle, -⟩ := hf
  exact hle

/-- A step counts once or not at all, and it counts only within the budget. -/
theorem step_icount (h : step s = .next t) :
    t.icount = s.icount ∨ (s.icount ≤ s.budget ∧ t.icount = s.icount + 1) := by
  cases case_of_step h with
  | stopped | timeout | pointer => exact .inl rfl
  | runs v t hf => exact .inr ⟨hf.icount_le, hf.icount_of_step h⟩

/-- The counter one up, as a number: it wraps at 2^64 (R15). -/
theorem toNat_count_succ (c : Count) : (c + 1).toNat = (c.toNat + 1) % 2 ^ 64 :=
  BitVec.toNat_add c 1

/-- Below the greatest budget a counter within it does not wrap. -/
theorem toNat_icount_succ (hb : s.budget.toNat < 2 ^ 64 - 1) (hle : s.icount ≤ s.budget) :
    (s.icount + 1).toNat = s.icount.toNat + 1 := by
  have hle : s.icount.toNat ≤ s.budget.toNat := hle
  rw [toNat_count_succ, Nat.mod_eq_of_lt (by omega)]

/-- `step_icount` with the counter as a number, below the greatest budget. -/
theorem step_toNat_icount (hb : s.budget.toNat < 2 ^ 64 - 1) (h : step s = .next t) :
    t.icount.toNat = s.icount.toNat ∨
      (s.icount.toNat ≤ s.budget.toNat ∧ t.icount.toNat = s.icount.toNat + 1) := by
  obtain hsame | ⟨hle, hcount⟩ := step_icount h
  · exact .inl (hsame ▸ rfl)
  · exact .inr ⟨hle, hcount ▸ toNat_icount_succ hb hle⟩

theorem step_budget (h : step s = .next t) : t.budget = s.budget := by
  obtain ⟨-, keeps, -⟩ := budgetIsReadOnlyByTheBudgetCheck
  exact keeps s t h

end

/-- Settles O46: a step that counts started within the budget, so it ends at most one above it and does not
wrap; at the bound phase 1 ends the step. -/
theorem counterNeverPassesBudgetByMoreThanOne : Obligations.CounterNeverPassesBudgetByMoreThanOne := by
  intro s t hb hc h
  have hbound := hc hb
  have hcount := step_toNat_icount hb h
  refine ⟨fun _ => ?_, by omega, fun hr hlast => ?_⟩
  · rw [step_budget h]
    omega
  · cases (step_timeout hr ((hc.timeout_iff hb).mpr hlast)).symm.trans h
    rfl

/-- Settles O47: a step that lowers the counter counted, so it wrapped, and it counted within the budget. -/
theorem counterWrapsOnlyAtTheGreatestBudget : Obligations.CounterWrapsOnlyAtTheGreatestBudget := by
  intro s t h hlt
  obtain hsame | ⟨hle, hcount⟩ := step_icount h
  · exact absurd hlt (hsame ▸ lt_irrefl _)
  · have hle : s.icount.toNat ≤ s.budget.toNat := hle
    have hbudget : s.budget.toNat < 2 ^ 64 := s.budget.isLt
    have hwrap : s.icount.toNat = 2 ^ 64 - 1 := by
      rw [hcount, toNat_count_succ] at hlt
      omega
    refine ⟨hwrap, by omega, ?_⟩
    have hzero : (s.icount + 1).toNat = 0 := by simp [hwrap]
    rw [hcount]
    exact BitVec.eq_of_toNat_eq hzero

/-- A run ends within one step request more than its budget has instructions left. -/
theorem execute_ends {n : Nat} {s : State} (hb : s.budget.toNat < 2 ^ 64 - 1)
    (hn : s.budget.toNat + 1 ≤ s.icount.toNat + n) :
    ∃ t, execute (n + 1) s = some (t, t.result) ∧ t.running = false := by
  cases hr : s.running with
  | false => exact ⟨s, execute_stopped hr _, hr⟩
  | true =>
    obtain ⟨t, ht, -⟩ := step_case s
    rw [execute_succ_of_next hr ht]
    cases hrt : t.running with
    | false => exact ⟨t, execute_stopped hrt n, hrt⟩
    | true =>
      obtain ⟨v, hf⟩ := fetches_of_running_stepState (stepState_of_next ht ▸ hrt)
      have hle : s.icount.toNat ≤ s.budget.toNat := hf.icount_le
      cases n with
      | zero => omega
      | succ n =>
        have hcount : t.icount.toNat = s.icount.toNat + 1 := by
          rw [hf.icount_of_step ht, toNat_icount_succ hb hle]
        have hbudget := step_budget ht
        exact execute_ends (hbudget ▸ hb) (by rw [hbudget, hcount]; omega)
termination_by n

/-- Settles O49: a run from any counter has at most `budget + 1` instructions left. -/
theorem runEndsWithinBudgetPlusTwo : Obligations.RunEndsWithinBudgetPlusTwo :=
  fun _ hb => execute_ends hb (Nat.le_add_left ..)

end Sys2Proof.Machine
end

section
/-! PROOFS. Construction (spec/70_reset_and_hazards.md R141) and the whole runs of the machines it builds: the
storage width does not matter (spec/00_scope.md R4) and a canonical program stays canonical (spec/10_state.md
R22). -/

namespace Sys2Proof.Machine

/-- The machine construction builds (R141): that of `State.reset` with the image loaded and the budget supplied. -/
def State.loaded (img : List Nat) (b : Count) : State :=
  { State.reset with mem := Memory.ofImage 0 img, budget := b }

theorem construct_eq_built_loaded {W : Nat} {img : List Nat} {b : Count} {s : State} :
    construct W img b = .built s ↔
      img.length ≤ 1000 ∧ (∀ v ∈ img, v < 2 ^ W) ∧ s = State.loaded img b :=
  construct_eq_built

section
variable (img : List Nat) (b : Count)

theorem State.reg_loaded (r : Digit) : (State.loaded img b).reg r = 0 := by
  simp [State.reg, State.loaded, State.reset]

/-- The cells of a new machine: the image, and zeros from its end. -/
theorem State.memRead_loaded {a : Nat} (h : a < 1000) :
    (State.loaded img b).memRead a = some (img.getD a 0) := by
  rw [State.memRead_of_lt _ h, State.loaded, Memory.read_ofImage, if_pos a.zero_le, Nat.sub_zero]

variable {img} {M : Nat}

/-- A new machine stores no value above those of its image. -/
theorem valuesAtMost_loaded (h : ∀ v ∈ img, v ≤ M) : ValuesAtMost M (State.loaded img b) := by
  refine ⟨fun a v hv => ?_, fun r => by simp [State.reg_loaded]⟩
  rw [State.memRead_loaded _ _ (State.memRead_eq_some.mp hv).1] at hv
  cases hv
  by_cases ha : a < img.length
  · rw [List.getD_eq_getElem _ _ ha]
    exact h _ (List.getElem_mem ha)
  · rw [List.getD_eq_default _ _ (Nat.not_lt.mp ha)]
    exact M.zero_le

end

section
variable {W : Nat}

/-- R3: a width the spec allows holds more than the 1000 that the pointer reaches by advancing. -/
theorem lt_two_pow_of_width (hW : 14 ≤ W) : 1000 < 2 ^ W :=
  lt_of_lt_of_le (by decide) (Nat.pow_le_pow_right two_pos hW)

/-- To fit in such a width is to be bounded by its greatest value. -/
theorem fitsWidth_iff_bounded (hW : 14 ≤ W) (s : State) : FitsWidth W s ↔ Bounded (2 ^ W - 1) s := by
  have hwide := lt_two_pow_of_width hW
  have hlt (n : Nat) : n < 2 ^ W ↔ n ≤ 2 ^ W - 1 := by omega
  rw [FitsWidth, Bounded, max_eq_left (by omega)]
  simp only [hlt]

end

/-- Settles O44: construction looks at the width only to refuse, and what is built is bounded by the greatest
value of the smaller width, which every step keeps. -/
theorem storageWidthDoesNotMatter : Obligations.StorageWidthDoesNotMatter := by
  intro W₁ W₂ img b s hW hle hbuilt
  obtain ⟨hlen, hfit, rfl⟩ := construct_eq_built_loaded.mp hbuilt
  have hpow : 2 ^ W₁ ≤ 2 ^ W₂ := Nat.pow_le_pow_right two_pos hle
  refine ⟨construct_eq_built_loaded.mpr ⟨hlen, fun v hv => (hfit v hv).trans_le hpow, rfl⟩, fun k => ?_⟩
  have hwide := lt_two_pow_of_width hW
  have hstart : Bounded (2 ^ W₁ - 1) (State.loaded img b) :=
    bounded_iff.mpr ⟨valuesAtMost_loaded b fun v hv => Nat.le_sub_one_of_lt (hfit v hv), Nat.zero_le _⟩
  exact (fitsWidth_iff_bounded hW _).mpr
    (stepTimes_keeps (fun s t => stepKeepsValuesBounded _ s t (by omega)) hstart k)

/-- Settles O45: the machine built is canonical with no fault latched, and every step keeps that. -/
theorem canonicalImageStaysCanonical : Obligations.CanonicalImageStaysCanonical := by
  intro W img b s himg hbuilt
  obtain ⟨-, -, rfl⟩ := construct_eq_built_loaded.mp hbuilt
  have hstart : Canonical (State.loaded img b) := canonical_iff.mpr (valuesAtMost_loaded b himg)
  exact stepTimes_keeps (P := fun t => Canonical t ∧ t.fcause ≠ some .invalidMemoryReference)
    (fun s t ⟨hc, hn⟩ h => stepKeepsCanonicalWithoutMemoryFault s t hc hn h) ⟨hstart, nofun⟩

/-- Settles O40: the two tests of construction in their order, and the machine of an image that passes both. -/
theorem constructLoadsTheImage : Obligations.ConstructLoadsTheImage := by
  refine fun W img b => ⟨fun hlong => if_pos hlong, fun hlen hwide => ?_, fun hlen hfit =>
    ⟨State.loaded img b, construct_eq_built_loaded.mpr ⟨hlen, hfit, rfl⟩, fun a ha => ?_, fun a ha ha' => ?_,
      State.reg_loaded img b, rfl, rfl, rfl, rfl, rfl⟩⟩
  · simp [construct, Nat.not_lt.mpr hlen, hwide]
  · rw [State.memRead_loaded _ _ (ha.trans_le hlen), List.getD_eq_getElem _ _ ha]
  · rw [State.memRead_loaded _ _ (Nat.lt_succ_of_le ha'), List.getD_eq_default _ _ ha]

/-- Settles O41: construction accepts the empty image and loads nothing; the invariants hold of what it builds. -/
theorem resetIsConstructionOfTheEmptyImage : Obligations.ResetIsConstructionOfTheEmptyImage :=
  ⟨construct_eq_built_loaded.mpr ⟨Nat.zero_le _, nofun, rfl⟩,
    ⟨Memory.wf_ofImage (img := []) (Nat.zero_le _), fun _ => rfl⟩,
    canonical_iff.mpr (valuesAtMost_loaded (img := []) Config.resetBudget nofun), fun _ => Nat.zero_le _⟩

end Sys2Proof.Machine
end

section
/-! PROOFS. What a step does to each part of the state: the memory (spec/20_memory.md), the machine that takes a
fault (spec/60_exceptions.md R118), the fault latch (spec/92_eei_decisions.md D4) and the transition table
(spec/40_step_run_control.md R65). -/

namespace Sys2Proof.Machine

/-- A step that fetches the cell value of `i` executes `i`. -/
theorem step_of_decode {s : State} {v : Nat} {i : Instr} (hf : Fetches s v) (hd : decode v = i) :
    step s = exec i s.countFetch :=
  hd ▸ step_fetches hf

/-- Settles O19. -/
theorem stepRunsDecodedInstruction : Obligations.StepRunsDecodedInstruction :=
  fun _ _ _ hr hb hv hd => step_of_decode ⟨hr, hb, hv⟩ hd

/-- Settles O20, by the cases of a step, which cover every state. -/
theorem stepAlwaysAnswersNext : Obligations.StepAlwaysAnswersNext := fun s => by
  obtain ⟨t, ht, -⟩ := step_case s
  exact ⟨t, ht⟩

/-! ### Memory -/

/-- Only a store changes a cell, and only the one it addresses. -/
theorem Effect.store_of_memRead_ne {i : Instr} {s t : State} {b : Nat} (he : Effect i s t)
    (hne : t.memRead b ≠ s.memRead b) :
    ∃ r a : Digit, i = .st r a ∧ b = s.reg a ∧ b < 1000 ∧ t.memRead b = some (s.reg r) := by
  cases he with
  | store r a h ha =>
    have hb : b = s.reg a := by
      by_contra hb
      simp [State.memRead_setCell s ha, hb] at hne
    subst hb
    exact ⟨r, a, h, rfl, ha, by simp [State.memRead_setCell s ha]⟩
  | result | copy | load | fall | jump | halt | badOperands | badCell | badAddress => exact absurd rfl hne

/-- Settles O30: of the cases of a step only the one that executes a store changes a cell. -/
theorem onlyAStoreChangesACell : Obligations.OnlyAStoreChangesACell := by
  intro s t b h hne
  cases case_of_step h with
  | stopped | timeout | pointer => exact absurd rfl hne
  | runs v t hf hx he =>
    obtain ⟨r, a, hi, hb, hlt, hread⟩ := he.store_of_memRead_ne hne
    obtain rfl := eq_encode_of_decode hi
    exact ⟨r, a, hf, hb, Nat.le_of_lt_succ hlt, hread⟩

/-- The step that fetches a store to an address up to 999 counts, writes the cell and advances. -/
theorem step_st {s : State} {r a : Digit} (hf : Fetches s (digits 9 r a)) (h : s.reg a < 1000) :
    step s = .next (s.countFetch.setCell (s.reg a) (s.reg r)).advance :=
  (step_of_decode hf (decode_digits_9 r a)).trans (exec_st (s := s.countFetch) r h)

/-- Settles O31: the store leaves a machine that is running within budget with its pointer at the cell just
written, so the next step fetches the value stored. -/
theorem storeIsSeenByTheNextFetch : Obligations.StoreIsSeenByTheNextFetch := by
  intro s r a hf ha hle hb
  have hlt : s.ip + 1 < 1000 := Nat.lt_succ_of_le hle
  have hstep := step_st hf (ha ▸ hlt)
  rw [ha] at hstep
  obtain ⟨hcell, -⟩ := s.countFetch.setCell_advance_frame hlt (s.reg r)
  obtain ⟨hr, -, -⟩ := hf
  have hnext : Fetches (s.countFetch.setCell (s.ip + 1) (s.reg r)).advance (s.reg r) := ⟨hr, hb, hcell⟩
  have htwo : s.icount + 2 = s.icount + 1 + 1 := (BitVec.add_assoc s.icount 1 1).symm
  refine ⟨_, hstep, rfl, rfl, ?_⟩
  rw [step_fetches hnext, htwo]
  rfl

/-! ### The machine that takes a fault -/

/-- The machine after the fault `f` (R116, R118): the counter has gone on unless the fault came before the fetch. -/
def State.faulted (s : State) (f : Fault) : State :=
  { s with
    icount := if f = .executionTimeout ∨ f = .pointerOutOfRange then s.icount else s.icount + 1
    running := false
    fcause := some f }

section
variable {s t : State} {f : Fault}

/-- A step that takes a fault does nothing else. -/
theorem StepRaises.step_eq (h : StepRaises s f) : step s = .next (s.faulted f) := by
  cases h with
  | timeout hr hb => exact step_timeout hr hb
  | pointer hr hb hp => exact step_pointer hr hb hp
  | execute v hf hx =>
    have hlate : ¬(f = .executionTimeout ∨ f = .pointerOutOfRange) := by
      rintro (rfl | rfl) <;> exact hx.elim
    rw [step_fetches hf, exec_of_raisedBy hx, State.faulted, if_neg hlate]
    rfl

/-- A step that newly latches a fault answers the machine after that fault. -/
theorem eq_faulted_of_latches (hs : s.fcause = none) (h : step s = .next t) (ht : t.fcause = some f) :
    t = s.faulted f := by
  have hraises := (step_latches_iff (by simp [hs]) h).mp ht
  cases hraises.step_eq.symm.trans h
  rfl

/-- With no fault latched before it, the step of a running machine takes a fault and does nothing else, or it
executes an instruction that latches none. -/
theorem step_faults_or_executes (hr : s.running = true) (hs : s.fcause = none) (h : step s = .next t) :
    (∃ f, t = s.faulted f) ∨
      ∃ v, Fetches s v ∧ exec (decode v) s.countFetch = .next t ∧ t.fcause = none := by
  cases ht : t.fcause with
  | some f => exact .inl ⟨f, eq_faulted_of_latches hs h ht⟩
  | none =>
    cases case_of_step h with
    | stopped hs => simp [hr] at hs
    | timeout | pointer => simp at ht
    | runs v t hf hx => exact .inr ⟨v, hf, hx, rfl⟩

end

/-- Settles O32: the machine after a fault differs from the one before it in the counter, the run flag and the
latch. -/
theorem faultsArePrecise : Obligations.FaultsArePrecise := by
  intro s t f _ hs h ht
  cases eq_faulted_of_latches hs h ht
  exact ⟨fun _ => rfl, fun _ => rfl, rfl, rfl, rfl, rfl⟩

/-! ### The fault latch -/

/-- `s` with another value in the latch. -/
def State.withFcause (s : State) (f : Option Fault) : State := { s with fcause := f }

/-- Where `o` is what is answered at `s` with the latch `f`, and `t` what is answered at `s`: the latch is
written, and `o` is `t`, or it is left alone in both, and `o` is `t` with the latch `f`. -/
def IgnoresFcause (f : Option Fault) (s t : State) (o : Host.Outcome State Fault Refusal) : Prop :=
  o = .next t ∨ (o = .next (t.withFcause f) ∧ t.fcause = s.fcause)

/-- No instruction reads the latch. -/
theorem exec_ignores_fcause {i : Instr} {s t : State} (f : Option Fault) (h : exec i s = .next t) :
    IgnoresFcause f s t (exec i (s.withFcause f)) := by
  cases i with
  | jnz g r =>
    by_cases hr : s.reg r = 0
    · cases (exec_jnz_falls g hr).symm.trans h
      exact .inr ⟨exec_jnz_falls (s := s.withFcause f) g hr, rfl⟩
    · cases (exec_jnz_jumps hr).symm.trans h
      exact .inr ⟨exec_jnz_jumps (s := s.withFcause f) hr, rfl⟩
  | ld d a =>
    by_cases ha : s.reg a < 1000
    · have hv := s.memRead_of_lt ha
      cases (exec_ld hv).symm.trans h
      exact .inr ⟨exec_ld (s := s.withFcause f) hv, rfl⟩
    · have ha := Nat.not_lt.mp ha
      cases (exec_ld_raises d ha).symm.trans h
      exact .inl (exec_ld_raises (s := s.withFcause f) d ha)
  | st r a =>
    by_cases ha : s.reg a < 1000
    · cases (exec_st r ha).symm.trans h
      exact .inr ⟨exec_st (s := s.withFcause f) r ha, rfl⟩
    · have ha := Nat.not_lt.mp ha
      cases (exec_st_raises r ha).symm.trans h
      exact .inl (exec_st_raises (s := s.withFcause f) r ha)
  | halt | ldi | addi | muli | mov | add | mul => cases h; exact .inr ⟨rfl, rfl⟩
  | illegal1xx | illegalGt999 => cases h; exact .inl rfl

/-- No step reads the latch. -/
theorem step_ignores_fcause {s t : State} (f : Option Fault) (h : step s = .next t) :
    IgnoresFcause f s t (step (s.withFcause f)) := by
  cases case_of_step h with
  | stopped hr => exact .inr ⟨step_stopped (s := s.withFcause f) hr, rfl⟩
  | timeout hr hb => exact .inl (step_timeout (s := s.withFcause f) hr hb)
  | pointer hr hb hp => exact .inl (step_pointer (s := s.withFcause f) hr hb hp)
  | runs v t hf hx =>
    rw [step_fetches (s := s.withFcause f) hf]
    exact exec_ignores_fcause f hx

/-- Settles O33: the step with another latch answers the same machine, or the same but for that latch. -/
theorem faultLatchIsNeverRead : Obligations.FaultLatchIsNeverRead := by
  intro s t f h
  obtain hu | ⟨hu, hkept⟩ := step_ignores_fcause f h
  · exact ⟨t, hu, rfl, fun _ => rfl, fun _ => rfl, rfl, rfl, rfl, .inl rfl⟩
  · exact ⟨t.withFcause f, hu, rfl, fun _ => rfl, fun _ => rfl, rfl, rfl, rfl, .inr ⟨rfl, hkept⟩⟩

/-! ### The transition table -/

/-- The row of R65 that goes on: the step of the cell `h p q` counts, leaves the rest of the control items alone,
and changes at most the register `p` (not families 0 and 9) and the cell at `x[q]` (family 9 only). -/
def GoesOn (h p q : Digit) (s : State) : Prop :=
  ∃ t, step s = .next t ∧ SameControl s.countFetch t ∧ SameRegsBut p s t ∧
    ((h = 0 ∨ h = 9) → SameRegs s t) ∧ (h ≠ 9 → SameMem s t) ∧
    ∀ b, b ≠ s.reg q → t.memRead b = s.memRead b

section
variable {h p q : Digit} {s : State}

theorem GoesOn.of_setIp {a : Nat} (hstep : step s = .next (s.countFetch.setIp a)) : GoesOn h p q s := by
  obtain ⟨hregs, hmem, hcontrol⟩ := s.countFetch.setIp_frame a
  exact ⟨_, hstep, hcontrol, fun r _ => hregs r, fun _ => hregs, fun _ => hmem, fun b _ => hmem b⟩

theorem GoesOn.of_setReg {v : Nat} (hstep : step s = .next (s.countFetch.setReg p v).advance)
    (hh : ¬(h = 0 ∨ h = 9)) : GoesOn h p q s := by
  obtain ⟨-, -, hregs, hmem, hcontrol⟩ := s.countFetch.setReg_advance_frame p v
  exact ⟨_, hstep, hcontrol, hregs, fun h => absurd h hh, fun _ => hmem, fun b _ => hmem b⟩

theorem GoesOn.of_setCell {v : Nat} (hstep : step s = .next (s.countFetch.setCell (s.reg q) v).advance)
    (hq : s.reg q < 1000) : GoesOn 9 p q s := by
  obtain ⟨-, hmem, -, hregs, hcontrol⟩ := s.countFetch.setCell_advance_frame hq v
  exact ⟨_, hstep, hcontrol, fun r _ => hregs r, fun _ => hregs, fun h => absurd rfl h, hmem⟩

/-- Family by family, the step of an instruction that neither halts nor faults. -/
theorem step_goesOn (hf : Fetches s (digits h p q)) (h1 : h ≠ 1)
    (haddr : h = 8 ∨ h = 9 → s.reg q ≤ 999) : GoesOn h p q s := by
  match h with
  | 0 =>
    by_cases hq : s.reg q = 0
    · exact .of_setIp ((step_of_decode hf (decode_digits_0 p q)).trans (exec_jnz_falls p hq))
    · exact .of_setIp (step_jnz_jumps hf hq)
  | 1 => exact absurd rfl h1
  | 2 => exact .of_setReg ((step_of_decode hf (decode_digits_2 p q)).trans (exec_ldi _ p q)) (by decide)
  | 3 => exact .of_setReg ((step_of_decode hf (decode_digits_3 p q)).trans (exec_addi _ p q)) (by decide)
  | 4 => exact .of_setReg ((step_of_decode hf (decode_digits_4 p q)).trans (exec_muli _ p q)) (by decide)
  | 5 => exact .of_setReg ((step_of_decode hf (decode_digits_5 p q)).trans (exec_mov _ p q)) (by decide)
  | 6 => exact .of_setReg ((step_of_decode hf (decode_digits_6 p q)).trans (exec_add _ p q)) (by decide)
  | 7 => exact .of_setReg ((step_of_decode hf (decode_digits_7 p q)).trans (exec_mul _ p q)) (by decide)
  | 8 =>
    have hcell := s.countFetch.memRead_of_lt (Nat.lt_succ_of_le (haddr (.inl rfl)))
    exact .of_setReg ((step_of_decode hf (decode_digits_8 p q)).trans (exec_ld hcell)) (by decide)
  | 9 =>
    have hq : s.reg q < 1000 := Nat.lt_succ_of_le (haddr (.inr rfl))
    exact .of_setCell (step_st hf hq) hq

end

/-- Settles O34, row by row: the terminal states, the two faults before the fetch, the cells above 999, those of
the halt family, and the other families, which fault at an address above 999 or go on. -/
theorem transitionTableHolds : Obligations.TransitionTableHolds := by
  refine fun s => ⟨step_stopped, step_timeout, step_pointer, fun v hf hv => step_illegalGt999 hv hf,
    fun v hf hlo hhi => ?_, step_halt, fun h p q hf => ⟨fun hh hq => step_load_or_store_raises hh hf hq,
    fun h1 haddr => ?_⟩⟩
  · obtain ⟨p, q, hne, rfl⟩ := exists_digits_1 hlo hhi
    exact step_illegal1xx hne hf
  · obtain ⟨t, ht, ⟨hcount, hbudget, hrunning, hfcause⟩, hframe⟩ := step_goesOn hf h1 haddr
    obtain ⟨hr, -, -⟩ := hf
    exact ⟨t, ht, hrunning.trans hr, hfcause, hcount, hbudget, hframe⟩

end Sys2Proof.Machine
end

section
/-! PROOFS. The machine that has stopped and the host's requests (spec/40_step_run_control.md section 4): what a
step and `execute` report, and what a stopped machine shows (spec/10_state.md R23, R26). -/

namespace Sys2Proof.Machine

/-! ### The stopped machine -/

/-- Settles O35: the step answers the same state, whose latch is the report. -/
theorem terminalStepReportsLatchedOutcome : Obligations.TerminalStepReportsLatchedOutcome := by
  intro s hr
  have hhost : hostStep s = (s, s.result) := hostStep_of_next (step_stopped hr)
  exact ⟨step_stopped hr, fun hs => by rw [hhost, State.result_of_fcause_none hs],
    fun f hs => by rw [hhost, State.result, hs]⟩

section
variable {s t : State}

/-- The only instruction that stops the machine and latches nothing is the halt. -/
theorem Effect.halt_of_stops {i : Instr} (he : Effect i s t) (hr : s.running = true)
    (hstop : t.running = false) (ht : t.fcause = none) : i = .halt ∧ t = s.stop := by
  cases he with
  | halt h => exact ⟨h, rfl⟩
  | badOperands | badCell | badAddress => simp at ht
  | result | copy | load | store | fall | jump => simp [hr] at hstop

/-- The step that stops a machine takes a fault or fetches the cell 100. -/
theorem step_stops (hr : s.running = true) (hs : s.fcause = none) (h : step s = .next t)
    (hstop : t.running = false) : (∃ f, t = s.faulted f) ∨ (Fetches s 100 ∧ t = s.countFetch.stop) := by
  obtain hfault | ⟨v, hf, hx, ht⟩ := step_faults_or_executes hr hs h
  · exact .inl hfault
  · obtain ⟨hi, ht⟩ := (effect_of_exec hx).halt_of_stops hr hstop ht
    obtain rfl := eq_encode_of_decode hi
    exact .inr ⟨hf, ht⟩

end

/-- Settles O36: the step that stops the machine leaves the pointer and the cell there, and what that cell holds is
read off the fault taken. -/
theorem stoppedMachineIsFrozenAtTheCulprit : Obligations.StoppedMachineIsFrozenAtTheCulprit := by
  intro s t hr hs h hstop
  have hways := step_stops hr hs h hstop
  have hip : t.ip = s.ip := by obtain ⟨f, rfl⟩ | ⟨-, rfl⟩ := hways <;> rfl
  have hcell : t.memRead t.ip = s.memRead s.ip := by obtain ⟨f, rfl⟩ | ⟨-, rfl⟩ := hways <;> rfl
  obtain ⟨-, -, hinstr, hoperands, hmemory⟩ := firstFailingCheckWins s t hr hs h
  refine ⟨stepTimes_stopped hstop, hip, fun ht => ?_, fun ht => ?_, fun ht => ?_, fun ht => ?_⟩
  · obtain ⟨f, rfl⟩ | ⟨⟨-, -, hv⟩, -⟩ := hways
    · cases ht
    · exact hcell.trans hv
  · obtain ⟨v, ⟨-, -, hv⟩, hgt⟩ := hinstr.mp ht
    exact ⟨v, hcell.trans hv, hgt⟩
  · obtain ⟨v, ⟨-, -, hv⟩, hlo, hhi⟩ := hoperands.mp ht
    exact ⟨v, hcell.trans hv, hlo, hhi⟩
  · obtain ⟨h, p, q, hh, ⟨-, -, hv⟩, -⟩ := hmemory.mp ht
    refine ⟨digits h p q, hcell.trans hv, ?_, digits_le h p q⟩
    obtain ⟨hlo, -⟩ := Laws.TableRange.digits_range h p q
    obtain rfl | rfl := hh
    · exact hlo
    · exact le_trans (by decide) hlo

/-- Settles O39: but for the counter, the record reads items that a fault leaves alone. -/
theorem faultRecordShowsTheFaultingState : Obligations.FaultRecordShowsTheFaultingState := by
  intro s t f _ hs h ht
  cases eq_faulted_of_latches hs h ht
  exact ⟨rfl, fun hle => ⟨_, s.memRead_of_lt (Nat.lt_succ_of_le hle)⟩, fun hgt => s.memRead_of_ge hgt⟩

/-! ### What the host is told -/

/-- A machine with no fault latched is running or halted. -/
theorem State.runState_of_fcause_none {s : State} (h : s.fcause = none) :
    s.runState = .running ∨ s.runState = .halted := by
  cases hr : s.running with
  | true => exact .inl (by simp [State.runState, hr])
  | false => exact .inr (by simp [State.runState, hr, h])

/-- Settles O37: a step that takes a fault reports it, and one that executes an instruction latches nothing and
reports `ok`. -/
theorem hostStepReportsOkOrTheFault : Obligations.HostStepReportsOkOrTheFault := by
  refine ⟨fun s hr => hostStep_of_next (step_stopped hr), fun s t r hr hs hhost => ?_⟩
  obtain ⟨u, h, -⟩ := step_case s
  cases (hostStep_of_next h).symm.trans hhost
  refine ⟨h, ?_⟩
  obtain ⟨f, rfl⟩ | ⟨v, hf, hx, ht⟩ := step_faults_or_executes hr hs h
  · exact .inr ⟨f, rfl, rfl, fun hearly => by rw [State.faulted, if_pos hearly]⟩
  · exact .inl ⟨v, hf, hx, State.result_of_fcause_none ht, State.runState_of_fcause_none ht⟩

/-! ### `execute` -/

/-- The run from `s` ends after `k` steps, in `t` with the report `r`. -/
def EndsAfter (k : Nat) (s t : State) (r : Result) : Prop :=
  t = stepTimes k s ∧ t.running = false ∧ r = t.result ∧ ∀ j, j < k → (stepTimes j s).running = true

section
variable {s t : State} {r : Result} {k : Nat}

/-- A run that has ended ends after no step, and in no other way. -/
theorem endsAfter_of_stopped (hr : s.running = false) :
    EndsAfter k s t r ↔ k = 0 ∧ t = s ∧ r = s.result := by
  constructor
  · rintro ⟨rfl, -, rfl, hrun⟩
    have hk : k = 0 := by
      by_contra hk
      have h0 : s.running = true := hrun 0 (Nat.pos_of_ne_zero hk)
      simp [hr] at h0
    subst hk
    exact ⟨rfl, rfl, rfl⟩
  · rintro ⟨rfl, rfl, rfl⟩
    exact ⟨rfl, hr, rfl, fun j hj => absurd hj j.not_lt_zero⟩

theorem not_endsAfter_zero (hr : s.running = true) : ¬ EndsAfter 0 s t r := by
  rintro ⟨rfl, hstop, -⟩
  exact absurd (hr.symm.trans hstop) (by decide)

/-- The run of a running machine goes on after its first step. -/
theorem endsAfter_succ (hr : s.running = true) :
    EndsAfter (k + 1) s t r ↔ EndsAfter k (stepState s) t r := by
  refine and_congr_right fun _ => and_congr_right fun _ => and_congr_right fun _ => ?_
  constructor
  · exact fun hrun j hj => hrun (j + 1) (Nat.succ_lt_succ hj)
  · intro hrun j hj
    cases j with
    | zero => exact hr
    | succ j => exact hrun j (Nat.lt_of_succ_lt_succ hj)

end

/-- `execute` answers where the run ends within its bound. -/
theorem execute_eq_some_iff {n : Nat} {s t : State} {r : Result} :
    execute n s = some (t, r) ↔ ∃ k, k ≤ n ∧ EndsAfter k s t r := by
  cases hr : s.running with
  | false =>
    rw [execute_stopped hr]
    simp [endsAfter_of_stopped hr, eq_comm]
  | true =>
    cases n with
    | zero => simp [execute, hr, not_endsAfter_zero hr]
    | succ n =>
      rw [execute, if_pos hr, execute_eq_some_iff]
      constructor
      · rintro ⟨k, hk, hends⟩
        exact ⟨k + 1, Nat.succ_le_succ hk, (endsAfter_succ hr).mpr hends⟩
      · rintro ⟨k, hk, hends⟩
        cases k with
        | zero => exact absurd hends (not_endsAfter_zero hr)
        | succ k => exact ⟨k, Nat.le_of_succ_le_succ hk, (endsAfter_succ hr).mp hends⟩
termination_by n

/-- Settles O38. -/
theorem executeIsStepRepeated : Obligations.ExecuteIsStepRepeated :=
  fun _ _ _ _ => execute_eq_some_iff

end Sys2Proof.Machine
end
